-- ==== Sys2Proof/Word.lean ====
section
/-!
DEFINITION. The two widths of the machine (spec 00_scope.md section 5): a byte is 8 bits, a word is 16 bits.
`+` and `-` on them are the arithmetic modulo 256 and modulo 65536 of the spec.
-/
namespace Sys2Proof

/-- An 8-bit value, 0 to 255, never signed (R5, R8, R18). -/
abbrev Byte := BitVec 8

/-- A 16-bit value, 0 to 65535 (R5, R10). -/
abbrev Word := BitVec 16

end Sys2Proof
end

