-- ==== Sys2Proof/Machine/Bytes.lean ====
section
/-!
DEFINITION. The byte-order and bit-field helpers of spec 00_scope.md section 5: `hi8`, `lo8`, `hi:lo`, `zext_16`.
-/
namespace Sys2Proof

/-- `hi8(w) = w[15:8]`. -/
def hi8 (w : Word) : Byte := w.extractLsb' 8 8

/-- `lo8(w) = w[7:0]`. -/
def lo8 (w : Word) : Byte := w.extractLsb' 0 8

/-- `hi:lo`, the word `hi * 256 + lo`. -/
def wordOf (hi lo : Byte) : Word := hi ++ lo

/-- `zext_16(b)`: bits 15 to 8 are zero. -/
def zext16 (b : Byte) : Word := b.setWidth 16

end Sys2Proof
end

