-- ==== Sys2Proof/Syntax.lean ====
section
/-!
DEFINITION. The instructions: one constructor per row of spec/opcode_table.json, in the table's order (R49, R50).
-/
namespace Sys2Proof

/-- An instruction with its operand bytes assembled (R46, R47). -/
inductive Instr where
  /-- `JSR abs16` (0x20, R73): the absolute target. -/
  | jsr (abs16 : Word)
  /-- `LDA zp8` (0xA5, R70): the zero page address. -/
  | ldaZp (zp8 : Byte)
  /-- `LDA #imm8` (0xA9, R69): the literal. -/
  | ldaImm (imm8 : Byte)
  /-- `LDA zp8,X` (0xB5, R71): the base the index register is added to. -/
  | ldaZpX (zp8 : Byte)
  /-- The default arm (R50, R88): an opcode byte that no other row matches. -/
  | illegal (opcode : Byte)
  deriving DecidableEq, Repr

end Sys2Proof
end

