-- ==== Sys2Proof/WellFormed.lean ====
section
/-!
DEFINITION. Which terms of `Instr` stand for bytes of this hardware. No operand value is restricted (R52); the one check is
that the default arm holds none of the four legal opcodes (R50).
-/
namespace Sys2Proof

/-- The four legal opcode values (R50). -/
def legalOpcodes : List Byte := [0x20, 0xA5, 0xA9, 0xB5]

/-- Well-formedness of an instruction (R50, R52). -/
def Instr.wellFormed : Instr → Bool
  | .jsr _ => true
  | .ldaZp _ => true
  | .ldaImm _ => true
  | .ldaZpX _ => true
  | .illegal opcode => !(legalOpcodes.contains opcode)

end Sys2Proof
end

