-- ==== Sys2Proof/Decode.lean ====
section
/-!
DEFINITION. The decoder, total on any bytes, and the encoder (30_encoding.md).
-/
namespace Sys2Proof

/-- A row of the opcode map (R49), or the default arm (R50). -/
inductive OpcodeRow where
  | jsr
  | ldaZp
  | ldaImm
  | ldaZpX
  | illegal
  deriving DecidableEq, Repr

/-- The opcode map: the match is on all eight bits of the opcode byte, and every other value is illegal
(R49, R50, R51, R56). -/
def opcodeRow (opcode : Byte) : OpcodeRow :=
  if opcode = 0x20 then .jsr
  else if opcode = 0xA5 then .ldaZp
  else if opcode = 0xA9 then .ldaImm
  else if opcode = 0xB5 then .ldaZpX
  else .illegal

/-- How many operand bytes follow the opcode byte: the row's format decides (R45, R46, R48). -/
def operandBytes : OpcodeRow → Nat
  | .jsr => 2
  | .ldaZp => 1
  | .ldaImm => 1
  | .ldaZpX => 1
  | .illegal => 0

/-- An instruction's length in bytes, opcode byte included (R45). -/
def rowLength (row : OpcodeRow) : Nat := 1 + operandBytes row

/-- The instruction that an opcode byte and the two bytes after it spell; a row with fewer operand bytes looks at no more
of them than it has (R46, R47). -/
def decodeBytes (opcode b1 b2 : Byte) : Instr :=
  match opcodeRow opcode with
  | .jsr => .jsr (wordOf b2 b1)
  | .ldaZp => .ldaZp b1
  | .ldaImm => .ldaImm b1
  | .ldaZpX => .ldaZpX b1
  | .illegal => .illegal opcode

/-- Why a list of bytes spells no instruction. -/
inductive DecodeError where
  /-- There is no opcode byte. -/
  | noBytes
  /-- The opcode byte's row has more operand bytes than there are bytes left. -/
  | truncated (opcode : Byte)
  deriving DecidableEq, Repr

/-- Decode the instruction at the head of a list of bytes and return the bytes after it (R45, R48). -/
def decode : List Byte → Except DecodeError (Instr × List Byte)
  | [] => .error .noBytes
  | opcode :: rest =>
    if rest.length < operandBytes (opcodeRow opcode) then .error (.truncated opcode)
    else .ok (decodeBytes opcode (rest.getD 0 0) (rest.getD 1 0), rest.drop (operandBytes (opcodeRow opcode)))

/-- The bytes of an instruction in memory order (R46: opcode first, `abs16` low byte first). -/
def encode : Instr → List Byte
  | .jsr abs16 => [0x20, lo8 abs16, hi8 abs16]
  | .ldaZp zp8 => [0xA5, zp8]
  | .ldaImm imm8 => [0xA9, imm8]
  | .ldaZpX zp8 => [0xB5, zp8]
  | .illegal opcode => [opcode]

/-- Byte `k` of an opcode-table word of `nbits` bits: bit 0 of the word is the least significant bit of byte 0, and every
bit above `nbits` is 0. -/
def tableByte (nbits w k : Nat) : Byte := BitVec.ofNat 8 ((w % 2 ^ nbits) / 256 ^ k)

/-- What the decoder reads from an instruction whose bits are `w`. -/
def decodeTableWord (nbits w : Nat) : Option Instr :=
  match decode [tableByte nbits w 0, tableByte nbits w 1, tableByte nbits w 2] with
  | .ok (i, _) => some i
  | .error _ => none

end Sys2Proof
end

