-- ==== Sys2Proof/Config.lean ====
section
/-!
DEFINITION. What this hardware fixes (R5) and its one open parameter, `EXTRA_CYCLES` (92_eei_decisions.md, last table).
There is no free value: R7 says that nothing in the in-scope behaviour is random or implementation-chosen.
-/
namespace Sys2Proof.Config

/-- `MEM_SIZE`: 65536 cells, addresses 0 to 65535 (R5, R18). -/
def memSize : Nat := 65536

/-- The stack page's base: the effective stack address is `0x0100 + SP` (R5, R13). -/
def stackBase : Word := 0x0100

/-- The value of `PC` after `Reset`: the immediate value, no vector is read (R5, R23, R106). -/
def resetPc : Word := 0xFFFC

/-- The value of `SP` after `Reset` (R13, R23, C1). -/
def resetSp : Byte := 0xFF

/-- What a cell holds after `Reset`, and so what an address that memory does not list reads as (R23, R30). -/
def resetCell : Byte := 0x00

/-- `EXTRA_CYCLES(opcode)`, the cycles added to an instruction's cost after its primitives: the spec's default, 0 for
every opcode (D7, log 4). `stepRunWith` and `executeWith` take any other choice as an argument. -/
def extraCycles (_opcode : Byte) : Nat := 0

end Sys2Proof.Config
end

