-- ==== Sys2Proof/Machine/State.lean ====
section
/-!
DEFINITION. The state of the machine (10_state.md): three general registers, the program counter, the stack pointer, seven
flags, 65536 memory cells and the fault status, and nothing else (R21).
-/
namespace Sys2Proof.Machine

/-- The faults of this hardware (R87), identified by name (R91). Each value is what the `fault` status holds and what a step
of a faulted machine reports. -/
inductive Fault where
  /-- `IllegalOpcode(opcode, at)`: raised by the meaning of `Instr.illegal`, and by `stepRun` at dispatch, when the opcode
  byte fetched at `fetchedAt` is none of the four legal ones (R88). Raising it is a next state with the status set;
  `step` of a machine whose status holds it answers it as its fault. Safe: the machine takes no further step (R83). -/
  | illegalOpcode (opcode : Byte) (fetchedAt : Word)
  /-- `OutOfRange(addr)`: raised by the memory interface for a host access outside 0 to 65535 (R89). No instruction raises
  it (R31), and the host's call fails alone, so it never enters the `fault` status by itself. Safe. -/
  | outOfRange (addr : Int)
  deriving DecidableEq, Repr

/-- Reasons why the MODEL gives no meaning. -/
inductive Refusal where
  /-- Raised by an arm of `exec` whose instruction has no meaning in the model; no arm raises it. Safe. -/
  | notModelled (mnemonic : String)
  deriving DecidableEq, Repr

/-- The seven status flags, each a single bit (R15). There is no eighth. -/
structure Flags where
  /-- Carry. -/
  c : Bool
  /-- Zero. -/
  z : Bool
  /-- Interrupt-disable. -/
  i : Bool
  /-- Decimal. -/
  d : Bool
  /-- Break. -/
  b : Bool
  /-- Overflow. -/
  v : Bool
  /-- Negative. -/
  n : Bool
  deriving DecidableEq, Repr

/-- Memory (R18): pairs of an address and a byte, addresses strictly rising, all below 65536, no byte equal to what an
unlisted address reads as (`Memory.wf` in Machine/Ops.lean). -/
abbrev Memory := List Host.Cell

/-- The whole state (10_state.md). -/
structure State where
  /-- `A`, the accumulator (R8). -/
  a : Byte
  /-- `X`, index register (R8). -/
  x : Byte
  /-- `Y`, index register (R8). -/
  y : Byte
  /-- `PC`, the address of the next instruction's opcode byte (R10). -/
  pc : Word
  /-- `SP`, the low byte of the address of the next free stack slot (R13). -/
  sp : Byte
  /-- `C`, `Z`, `I`, `D`, `B`, `V`, `N` (R15). -/
  flags : Flags
  /-- `mem[0..65535]` (R18). -/
  mem : Memory
  /-- The sticky fault status (R19). -/
  fault : Option Fault
  deriving DecidableEq, Repr

/-- The state after `Reset`, every value as R23 tabulates it. -/
def State.reset : State where
  a := 0x00
  x := 0x00
  y := 0x00
  pc := Config.resetPc
  sp := Config.resetSp
  flags := { c := false, z := false, i := false, d := false, b := false, v := false, n := false }
  mem := []
  fault := none

end Sys2Proof.Machine
end

