-- ==== Sys2Proof/Machine/Ops.lean ====
section
/-!
DEFINITION. The named operations over memory, the registers, the fault status, and the CPU's primitives that move a byte over
the memory interface (20_memory.md, 40_fetch_and_addressing.md section 1, 42_subroutine_call.md section 1).
-/
namespace Sys2Proof.Machine

/-! ### Memory cells -/

/-- The canonical form of memory: addresses strictly rising, every address in range (R18), no entry that holds what an
unlisted address reads as. -/
abbrev Memory.wf (m : Memory) : Prop :=
  m.Pairwise (fun p q => p.1 < q.1) ∧ ∀ c ∈ m, c.1 < Config.memSize ∧ c.2 ≠ Config.resetCell

/-- The content of cell `addr`. -/
def Memory.get : Memory → Nat → Byte
  | [], _ => Config.resetCell
  | (k, v) :: m, addr => if k = addr then v else Memory.get m addr

/-- Put an entry before the first entry of a greater address. -/
def Memory.place (addr : Nat) (v : Byte) : Memory → Memory
  | [] => [(addr, v)]
  | c :: m => if addr < c.1 then (addr, v) :: c :: m else c :: Memory.place addr v m

/-- Replace the content of cell `addr` and of no other (R28), in canonical form. -/
def Memory.set (m : Memory) (addr : Nat) (v : Byte) : Memory :=
  let others := m.filter (fun c => c.1 != addr)
  if v = Config.resetCell then others else Memory.place addr v others

/-! ### The memory contract: integer addresses, `OutOfRange` outside 0 to 65535 (20_memory.md section 2) -/

/-- `0 ≤ addr < 65536`. -/
abbrev InRange (addr : Int) : Prop := 0 ≤ addr ∧ addr < Config.memSize

/-- `read(address)` (R27). -/
def Memory.read (m : Memory) (addr : Int) : Except Fault Byte :=
  if InRange addr then .ok (m.get addr.toNat) else .error (.outOfRange addr)

/-- `write(address, byte)` (R28). -/
def Memory.write (m : Memory) (addr : Int) (v : Byte) : Except Fault Memory :=
  if InRange addr then .ok (m.set addr.toNat v) else .error (.outOfRange addr)

/-- `write_word(address, value, cycle_budget)` (R29): both bounds are checked before either byte is written (D30); the low
byte goes to the lower address; the caller's budget falls by 2. -/
def Memory.writeWord (m : Memory) (addr : Int) (w : Word) (budget : Int) : Except Fault (Memory × Int) :=
  if ¬ InRange addr then .error (.outOfRange addr)
  else if ¬ InRange (addr + 1) then .error (.outOfRange (addr + 1))
  else .ok ((m.set addr.toNat (lo8 w)).set (addr + 1).toNat (hi8 w), budget - 2)

/-- `initialize()` (R30): every cell becomes zero, whatever it held. -/
def Memory.zeroAll (_m : Memory) : Memory := []

/-! ### Registers and cells of the state -/

/-- The byte at a 16-bit address; such an address is always in range (R31). -/
def State.load (s : State) (addr : Word) : Byte := s.mem.get addr.toNat

/-- Write the byte at a 16-bit address (R28, R31). -/
def State.store (s : State) (addr : Word) (v : Byte) : State := { s with mem := s.mem.set addr.toNat v }

/-- `A <- v`. -/
def State.setA (s : State) (v : Byte) : State := { s with a := v }

/-- `SP <- v`. -/
def State.setSp (s : State) (v : Byte) : State := { s with sp := v }

/-- `PC <- target`. -/
def State.setPc (s : State) (target : Word) : State := { s with pc := target }

/-- `PC <- (PC + n) mod 65536` (R11, D2). -/
def State.advancePc (s : State) (n : Word) : State := { s with pc := s.pc + n }

/-- Write the seven flags. -/
def State.setFlags (s : State) (f : Flags) : State := { s with flags := f }

/-! ### Taking a fault, and `Reset` -/

/-- Fault entry, the one shared operation (R92): the `fault` status is set and nothing else happens; nothing is pushed, no
flag changes, `PC` is not redirected, no vector is read. There is no return from a fault (R95); only `Reset` clears it. -/
def State.takeFault (s : State) (f : Fault) : State := { s with fault := some f }

/-- `Reset()` (R104), from any state. -/
def resetMachine (s : State) : State :=
  { s with
    pc := Config.resetPc
    sp := Config.resetSp
    flags := { c := false, z := false, i := false, d := false, b := false, v := false, n := false }
    a := 0x00
    x := 0x00
    y := 0x00
    mem := s.mem.zeroAll
    fault := none }

/-! ### The primitives: each moves one byte over the memory interface and charges one cycle (R78, R113, R115) -/

/-- One transaction of the memory interface (R115), with the byte moved. -/
inductive Access where
  | read (addr : Word) (data : Byte)
  | write (addr : Word) (data : Byte)
  deriving DecidableEq, Repr

/-- A state under a cycle budget: the budget is threaded through every primitive (R20, R78), and `trace` lists the
transactions made so far, oldest first (R40). Neither is state of the machine (log 4, log 5). -/
structure Run where
  st : State
  budget : Int
  trace : List Access
  deriving DecidableEq, Repr

/-- A state with a budget of `n` and nothing moved yet. -/
def Run.start (s : State) (n : Int) : Run := { st := s, budget := n, trace := [] }

/-- Charge one cycle and note the transaction. -/
def Run.charge (r : Run) (t : Access) : Run := { r with budget := r.budget - 1, trace := r.trace ++ [t] }

/-- `FetchByte()` (R57). -/
def fetchByte (r : Run) : Byte × Run :=
  let b := r.st.load r.st.pc
  let r' := r.charge (.read r.st.pc b)
  (b, { r' with st := r'.st.advancePc 1 })

/-- `FetchWord()` (R58): two `FetchByte()`, low byte first. -/
def fetchWord (r : Run) : Word × Run :=
  let (lo, r1) := fetchByte r
  let (hi, r2) := fetchByte r1
  (wordOf hi lo, r2)

/-- `ReadByte(address)` (R59). -/
def readByte (addr : Word) (r : Run) : Byte × Run :=
  let b := r.st.load addr
  (b, r.charge (.read addr b))

/-- The stack slot that a stack pointer names: `0x0100 + SP` (R13). -/
def stackSlot (sp : Byte) : Word := Config.stackBase + zext16 sp

/-- `Push(b)` (R72): the next free slot, then `SP` down by one modulo 256 (R14, D5). -/
def push (b : Byte) (r : Run) : Run :=
  let slot := stackSlot r.st.sp
  let r' := r.charge (.write slot b)
  { r' with st := (r'.st.store slot b).setSp (r'.st.sp - 1) }

end Sys2Proof.Machine
end

