-- ==== Sys2Proof/Machine/Operands.lean ====
section
/-!
DEFINITION. The addressing-mode resolver (40_fetch_and_addressing.md section 2).
-/
namespace Sys2Proof.Machine

/-- The addressing modes (R61 to R65); there is no other (R67). -/
inductive Mode where
  | immediate
  | zeroPage
  | zeroPageX
  /-- Specified, used by no opcode (R64). -/
  | zeroPageY
  | absolute
  deriving DecidableEq, Repr

/-- What a mode yields (R60). -/
inductive Resolved where
  | literal (v : Byte)
  | address (ea : Word)
  deriving DecidableEq, Repr

/-- The zero page address an operand byte names: the upper byte is 0 (R62). -/
def zeroPageAddr (zp : Byte) : Word := zext16 zp

/-- The indexed zero page address: the sum wraps within the zero page and is then extended (R63, R64). -/
def zeroPageIndexed (zp index : Byte) : Word := zext16 (zp + index)

/-- `Resolve(mode)` (R60): fetch the mode's operand bytes and yield a literal or an address. -/
def resolve (mode : Mode) (r : Run) : Resolved × Run :=
  match mode with
  | .immediate => let (v, r1) := fetchByte r; (.literal v, r1)
  | .zeroPage => let (zp, r1) := fetchByte r; (.address (zeroPageAddr zp), r1)
  | .zeroPageX => let (zp, r1) := fetchByte r; (.address (zeroPageIndexed zp r1.st.x), r1)
  | .zeroPageY => let (zp, r1) := fetchByte r; (.address (zeroPageIndexed zp r1.st.y), r1)
  | .absolute => let (t, r1) := fetchWord r; (.address t, r1)

/-- The operand's value: a literal as it is, an address by one `ReadByte` (R60). -/
def operandValue (o : Resolved) (r : Run) : Byte × Run :=
  match o with
  | .literal v => (v, r)
  | .address ea => readByte ea r

end Sys2Proof.Machine
end

