-- ==== Sys2Proof/Machine/Call.lean ====
section
/-!
DEFINITION. The subroutine call (42_subroutine_call.md section 2): `JSR abs16`.
-/
namespace Sys2Proof.Machine

/-- What `JSR` does once its target is fetched and `PC` is past its three bytes: push `PC - 1`, high byte first (D4), then
`PC <- target` (R73). -/
def callSubroutine (target : Word) (r : Run) : Run :=
  let ret := r.st.pc - 1
  let r1 := push (hi8 ret) r
  let r2 := push (lo8 ret) r1
  { r2 with st := r2.st.setPc target }

/-- The handler `JSR` of the spec (R73): the target is the operand of the absolute mode (R65). -/
def runJsr (r : Run) : Run :=
  let (target, r1) := fetchWord r
  callSubroutine target r1

/-- `JSR abs16` (R73). -/
def execJsr (abs16 : Word) (s : State) : Host.Outcome State Fault Refusal :=
  .next (callSubroutine abs16 (Run.start (s.advancePc 3) 0)).st

end Sys2Proof.Machine
end

