-- ==== Sys2Proof/Machine/Illegal.lean ====
section
/-!
DEFINITION. The illegal-opcode arm (R50, R88): it takes the fault `IllegalOpcode`.
-/
namespace Sys2Proof.Machine

/-- `raise IllegalOpcode(opcode, at)` (R88, R92). -/
def raiseIllegalOpcode (opcode : Byte) (fetchedAt : Word) (s : State) : State :=
  s.takeFault (.illegalOpcode opcode fetchedAt)

/-- An illegal opcode (R88): the opcode fetch has happened, so `PC` is past it, and nothing else. -/
def execIllegal (opcode : Byte) (s : State) : Host.Outcome State Fault Refusal :=
  .next (raiseIllegalOpcode opcode s.pc (s.advancePc 1))

end Sys2Proof.Machine
end

