-- ==== Sys2Proof/Machine/Flags.lean ====
section
/-!
DEFINITION. The flag-update stage (R68), which is the whole of the flag computation in scope, and the packed view of the
flags (R17), which no instruction reads or writes.
-/
namespace Sys2Proof.Machine

/-- The flags after a load that left `a` in the accumulator: `Z` iff `a` is 0, `N` is bit 7 of `a`, the others as they were
(R68). -/
def loadFlags (a : Byte) (f : Flags) : Flags := { f with z := a == 0x00, n := a.getLsbD 7 }

/-- `LDASetStatus()` (R68), from the new `A`. -/
def State.ldaSetStatus (s : State) : State := s.setFlags (loadFlags s.a s.flags)

/-- The packed byte `P` (R17, log 9): C bit 0, Z 1, I 2, D 3, B 4, bit 5 reads 1, V 6, N 7. -/
def packFlags (f : Flags) : Byte :=
  BitVec.ofBool f.n ++ BitVec.ofBool f.v ++ 1#1 ++ BitVec.ofBool f.b ++ BitVec.ofBool f.d ++ BitVec.ofBool f.i
    ++ BitVec.ofBool f.z ++ BitVec.ofBool f.c

/-- The seven flags of a packed byte; bit 5 is ignored (R17, log 9). -/
def unpackFlags (p : Byte) : Flags where
  c := p.getLsbD 0
  z := p.getLsbD 1
  i := p.getLsbD 2
  d := p.getLsbD 3
  b := p.getLsbD 4
  v := p.getLsbD 6
  n := p.getLsbD 7

end Sys2Proof.Machine
end

