-- ==== Sys2Proof/Machine/Load.lean ====
section
/-!
DEFINITION. The load accumulator family (41_load_accumulator.md): `LDA #imm8`, `LDA zp8`, `LDA zp8,X`.
An `exec` meaning starts where `PC` is the address of the opcode byte and its operand byte is already decoded; `runLda` is
the spec's handler, which starts after the opcode fetch and fetches its operand byte itself. Both end in `loadAccumulator`.
-/
namespace Sys2Proof.Machine

/-- What every `LDA` does with its resolved operand: `A <- value`, then `LDASetStatus()` (R69 to R71). -/
def loadAccumulator (o : Resolved) (r : Run) : Run :=
  let (v, r1) := operandValue o r
  { r1 with st := (r1.st.setA v).ldaSetStatus }

/-- The handlers `LDA_IMM`, `LDA_ZP`, `LDA_ZPX` of the spec (R69 to R71), one per mode. -/
def runLda (mode : Mode) (r : Run) : Run :=
  let (o, r1) := resolve mode r
  loadAccumulator o r1

/-- `LDA zp8` (R70). -/
def execLdaZp (zp8 : Byte) (s : State) : Host.Outcome State Fault Refusal :=
  .next (loadAccumulator (.address (zeroPageAddr zp8)) (Run.start (s.advancePc 2) 0)).st

/-- `LDA #imm8` (R69). -/
def execLdaImm (imm8 : Byte) (s : State) : Host.Outcome State Fault Refusal :=
  .next (loadAccumulator (.literal imm8) (Run.start (s.advancePc 2) 0)).st

/-- `LDA zp8,X` (R71). -/
def execLdaZpX (zp8 : Byte) (s : State) : Host.Outcome State Fault Refusal :=
  .next (loadAccumulator (.address (zeroPageIndexed zp8 s.x)) (Run.start (s.advancePc 2) 0)).st

end Sys2Proof.Machine
end

