-- ==== Sys2Proof/Machine/Cycle.lean ====
section
/-!
DEFINITION. The instruction cycle (43_instruction_cycle.md), twice over the same operations: `stepState`, which decodes the
bytes at `PC` and runs `exec`, and `stepRun`, which is the spec's `Step()` word for word, fetching byte by byte and charging
the budget; and `Execute(n)`, which repeats `stepRun`.
-/
namespace Sys2Proof.Machine

/-- The instruction whose opcode byte stands at `PC`; addresses wrap modulo 65536 (R53). Reads have no side effect (R35), so
looking at bytes that a shorter instruction does not have is not observable (log 6). -/
def fetchInstr (s : State) : Instr := decodeBytes (s.load s.pc) (s.load (s.pc + 1)) (s.load (s.pc + 2))

/-- One step: a faulted machine takes none and reports its standing fault (R83, log 1); any other runs the instruction at
`PC` (R76). -/
def stepState (s : State) : Host.Outcome State Fault Refusal :=
  match s.fault with
  | some f => .fault f
  | none => exec (fetchInstr s) s

/-- The dispatch of `Step()` (R76): exactly one of five arms (R51). -/
def dispatchRun (opcode : Byte) (fetchedAt : Word) (r : Run) : Run :=
  match opcodeRow opcode with
  | .jsr => runJsr r
  | .ldaZp => runLda .zeroPage r
  | .ldaImm => runLda .immediate r
  | .ldaZpX => runLda .zeroPageX r
  | .illegal => { r with st := raiseIllegalOpcode opcode fetchedAt r.st }

/-- `Step()` under a budget (R76) with `extra` for `EXTRA_CYCLES` (D7, log 4): the extra cycles are charged at the end of a
completed instruction. A faulted machine is left as it is (R83). -/
def stepRunWith (extra : Byte → Nat) (r : Run) : Run :=
  match r.st.fault with
  | some _ => r
  | none =>
    let fetchedAt := r.st.pc
    let (opcode, r1) := fetchByte r
    let r2 := dispatchRun opcode fetchedAt r1
    if r2.st.fault.isSome then r2 else { r2 with budget := r2.budget - (extra opcode : Int) }

/-- `Step()` (R76) at this hardware's cycle costs. -/
def stepRun (r : Run) : Run := stepRunWith Config.extraCycles r

/-- The loop of `Execute` (R77): the test is made only between instructions (R79). Every step charges at least 1, so `fuel`
iterations are enough for a budget of `fuel` (R84). -/
def executeLoop (extra : Byte → Nat) : Nat → Run → Run
  | 0, r => r
  | fuel + 1, r =>
    if 0 < r.budget then
      let r' := stepRunWith extra r
      if r'.st.fault.isSome then r' else executeLoop extra fuel r'
    else r

/-- What `Execute` reports (R80, R83). -/
inductive ExecuteOutcome where
  /-- `Consumed(c)`, `c = n - budget_final` (R80). -/
  | consumed (cycles : Int)
  /-- `Fault(f)`: a step raised `f` (R80). -/
  | faulted (f : Fault)
  /-- The machine was faulted before the call: refused, the standing fault reported (R83, log 2). -/
  | refused (f : Fault)
  deriving DecidableEq, Repr

/-- The outcome of `Execute` with the state, the budget and the transactions it ends with. -/
structure Executed where
  outcome : ExecuteOutcome
  final : Run
  deriving DecidableEq, Repr

/-- `Execute(n)` (R77) with `extra` for `EXTRA_CYCLES` (D7). -/
def executeWith (extra : Byte → Nat) (n : Int) (s : State) : Executed :=
  match s.fault with
  | some f => { outcome := .refused f, final := Run.start s n }
  | none =>
    let r := executeLoop extra n.toNat (Run.start s n)
    match r.st.fault with
    | some f => { outcome := .faulted f, final := r }
    | none => { outcome := .consumed (n - r.budget), final := r }

/-- `Execute(n)` (R77) at this hardware's cycle costs. -/
def execute (n : Int) (s : State) : Executed := executeWith Config.extraCycles n s

end Sys2Proof.Machine
end

