-- ==== Sys2Proof/Machine/Step.lean ====
section
/-! DEFINITION. One step of the machine, and the placing of an instruction where the next step fetches it. -/
namespace Sys2Proof.Machine

/-- One step (R76, R83): `stepState` of Machine/Cycle.lean. -/
def step (s : State) : Host.Outcome State Fault Refusal := stepState s

/-- `s` with the three bytes of an opcode-table word stored at `PC`, `PC + 1`, `PC + 2` (R46, R53). It stands for the host's
loading of a program (R107, log 3) and leaves everything else as it is, a standing fault too (log 3). -/
def State.withFetchWord (s : State) (nbits w : Nat) : State :=
  ((s.store s.pc (tableByte nbits w 0)).store (s.pc + 1) (tableByte nbits w 1)).store (s.pc + 2) (tableByte nbits w 2)

end Sys2Proof.Machine
end

