-- ==== Sys2Proof/Machine/HostAccess.lean ====
section
/-!
DEFINITION. What the host may do between runs (R25, R43, R107, R115): `Reset`, read and write any register, flag or cell. It
has no move during a run (R43, R82), and it cannot write the `fault` status, which only `Reset` clears (R109, log 8).
-/
namespace Sys2Proof.Machine

/-- The 8-bit registers the host may name (R25). -/
inductive Register where
  | a
  | x
  | y
  | sp
  deriving DecidableEq, Repr

/-- The flags the host may name (R15, R25). -/
inductive Flag where
  | c
  | z
  | i
  | d
  | b
  | v
  | n
  deriving DecidableEq, Repr

/-- A host call that changes the machine (R115). -/
inductive HostCall where
  | reset
  | setRegister (r : Register) (v : Byte)
  | setPc (v : Word)
  | setFlag (f : Flag) (v : Bool)
  | write (addr : Int) (v : Byte)
  | writeWord (addr : Int) (w : Word)
  | zeroMemory
  deriving DecidableEq, Repr

/-- Write one flag and no other. -/
def Flags.setFlag (fl : Flags) (f : Flag) (v : Bool) : Flags :=
  match f with
  | .c => { fl with c := v }
  | .z => { fl with z := v }
  | .i => { fl with i := v }
  | .d => { fl with d := v }
  | .b => { fl with b := v }
  | .v => { fl with v := v }
  | .n => { fl with n := v }

/-- The host reads a register (R25). -/
def hostReadRegister (s : State) : Register → Byte
  | .a => s.a
  | .x => s.x
  | .y => s.y
  | .sp => s.sp

/-- The host reads `PC` (R25, R115). -/
def hostReadPc (s : State) : Word := s.pc

/-- The host reads a flag (R25). -/
def hostReadFlag (s : State) : Flag → Bool
  | .c => s.flags.c
  | .z => s.flags.z
  | .i => s.flags.i
  | .d => s.flags.d
  | .b => s.flags.b
  | .v => s.flags.v
  | .n => s.flags.n

/-- The host reads a cell (R27, R43), free of cycle charge. -/
def hostReadMemory (s : State) (addr : Int) : Except Fault Byte := s.mem.read addr

/-- The host writes a register (R25). -/
def hostSetRegister (s : State) (r : Register) (v : Byte) : State :=
  match r with
  | .a => { s with a := v }
  | .x => { s with x := v }
  | .y => { s with y := v }
  | .sp => { s with sp := v }

/-- One host call. A memory call that fails changes nothing and leaves the `fault` status alone (R89, D19). A host
`write_word` has no budget to charge (C7). -/
def hostCall (call : HostCall) (s : State) : Except Fault State :=
  match call with
  | .reset => .ok (resetMachine s)
  | .setRegister r v => .ok (hostSetRegister s r v)
  | .setPc v => .ok (s.setPc v)
  | .setFlag f v => .ok (s.setFlags (s.flags.setFlag f v))
  | .write addr v => (s.mem.write addr v).map (fun m => { s with mem := m })
  | .writeWord addr w => (s.mem.writeWord addr w 0).map (fun p => { s with mem := p.1 })
  | .zeroMemory => .ok { s with mem := s.mem.zeroAll }

end Sys2Proof.Machine
end

