-- ==== Sys2Proof/Safety.lean ====
section
/-!
DEFINITION. What holds of every state between steps, in the terms that claims use.
-/
namespace Sys2Proof.Machine

/-- A standing fault is truthful (R88, R31): it is an `IllegalOpcode` whose byte is none of the four legal ones, that byte
stands where the fault says it was fetched, and `PC` is just past it. -/
abbrev State.FaultTruthful (s : State) : Prop :=
  ∀ f ∈ s.fault, ∃ opcode fetchedAt, f = .illegalOpcode opcode fetchedAt ∧ opcode ∉ legalOpcodes
    ∧ s.load fetchedAt = opcode ∧ s.pc = fetchedAt + 1

/-- `Z` and `N` are not both 1 (R68). -/
abbrev State.FlagsConsistent (s : State) : Prop := ¬ (s.flags.z = true ∧ s.flags.n = true)

/-- The state that R69 to R71 give after a load of `v`: `A <- v`, `Z` and `N` from the new `A`, `PC` past the two bytes of the
instruction, everything else as it was. -/
def loadedState (s : State) (v : Byte) : State :=
  { s with a := v, flags := { s.flags with z := decide (v = 0), n := decide (0x80 ≤ v.toNat) }, pc := s.pc + 2 }

/-- The cycle cost of the instruction that an opcode byte starts (the table of R81; an illegal byte costs its fetch). -/
def cycleCost (opcode : Byte) : Nat :=
  if opcode = 0x20 then 5
  else if opcode = 0xA5 then 3
  else if opcode = 0xA9 then 2
  else if opcode = 0xB5 then 3
  else 1

/-- The stack page, 0x0100 to 0x01FF (R36). -/
abbrev InStackPage (addr : Word) : Prop := 0x0100 ≤ addr.toNat ∧ addr.toNat ≤ 0x01FF

/-- The zero page, 0x0000 to 0x00FF (R36). -/
abbrev InZeroPage (addr : Word) : Prop := addr.toNat ≤ 0x00FF

/-- The invariant of a run: memory in canonical form, flags as a load or `Reset` leaves them, a truthful fault status. -/
structure State.Inv (s : State) : Prop where
  memWf : s.mem.wf
  flagsConsistent : s.FlagsConsistent
  faultTruthful : s.FaultTruthful

end Sys2Proof.Machine
end

