-- ==== Sys2Proof/Certificates/Slice0/Obligations.lean ====
section
/-!
DEFINITION. The statements for the provers. Each says in its docstring which text of spec/ it formalises; where it rests on a
decision of the spec's own (D<n> of 92_eei_decisions.md) or on a choice of the model (log <n>), it says so.
-/
open Sys2Proof
open Sys2Proof.Machine

/-! ### Reset and memory -/

/-- What `Reset` leaves, from every state, a faulted one too (70_reset_and_hazards.md section 1, 10_state.md section 7). That
memory is zeroed and the vector not read is D17, that the fault status is cleared D31, that `SP` is 0xFF D1. -/
def Obligations.ResetLeavesPowerOnState : Prop :=
  ∀ s : State, hostCall .reset s = .ok State.reset
    ∧ (resetMachine s).pc = 0xFFFC ∧ (resetMachine s).sp = 0xFF
    ∧ (resetMachine s).a = 0 ∧ (resetMachine s).x = 0 ∧ (resetMachine s).y = 0
    ∧ (∀ f : Flag, hostReadFlag (resetMachine s) f = false)
    ∧ (∀ addr : Word, (resetMachine s).load addr = 0) ∧ (resetMachine s).fault = none

/-- R108: straight after `Reset`, with memory untouched, `Execute` raises `IllegalOpcode(0x00, 0xFFFC)` with `PC = 0xFFFD`
after one cycle. R108 is marked derived by the spec; that `Execute` reports it as a fault rests on D9. -/
def Obligations.FreshMachineFaultsAtOnce : Prop :=
  ∀ n : Int, 0 < n → execute n State.reset =
    { outcome := .faulted (.illegalOpcode 0x00 0xFFFC),
      final := { st := { State.reset with pc := 0xFFFD, fault := some (.illegalOpcode 0x00 0xFFFC) },
                 budget := n - 1, trace := [.read 0xFFFC 0x00] } }

/-- R27, R28, R44: the memory contract. `read` gives the cell's content, `write` replaces it and no other cell, both fail with
`OutOfRange` outside 0 to 65535, and after `initialize` every cell reads 0. -/
def Obligations.MemoryContract : Prop :=
  ∀ m : Memory,
    (∀ a : Int, 0 ≤ a ∧ a < 65536 → m.read a = .ok (m.get a.toNat) ∧ m.zeroAll.read a = .ok 0)
    ∧ (∀ (a : Int) (v : Byte), 0 ≤ a ∧ a < 65536 → ∃ m' : Memory, m.write a v = .ok m' ∧ m'.read a = .ok v
        ∧ ∀ b : Int, b ≠ a → m'.read b = m.read b)
    ∧ (∀ (a : Int) (v : Byte), a < 0 ∨ 65536 ≤ a → m.read a = .error (.outOfRange a)
        ∧ m.write a v = .error (.outOfRange a))

/-- 20_memory.md section 2, `write_word`: low byte at `address`, high byte at `address + 1`, no other cell, two cycles; it
fails with the first address out of bounds, with no wrap at the top of memory. That both bounds are checked first, so that a
failing call answers neither a memory nor a budget, is D30. -/
def Obligations.WriteWordIsLittleEndianOrFailsWhole : Prop :=
  ∀ (m : Memory) (a : Int) (w : Word) (n : Int),
    (0 ≤ a ∧ a < 65535 → ∃ (m' : Memory) (lo hi : Byte), m.writeWord a w n = .ok (m', n - 2)
        ∧ w.toNat = hi.toNat * 256 + lo.toNat ∧ m'.read a = .ok lo ∧ m'.read (a + 1) = .ok hi
        ∧ ∀ b : Int, b ≠ a → b ≠ a + 1 → m'.read b = m.read b)
    ∧ (a = 65535 → m.writeWord a w n = .error (.outOfRange 65536))
    ∧ (a < 0 ∨ 65536 ≤ a → m.writeWord a w n = .error (.outOfRange a))

/-! ### Fetch stage, addressing modes, flags -/

/-- 40_fetch_and_addressing.md section 1: `FetchByte` and `FetchWord`. The wrap of `PC` at 0xFFFF is D2. -/
def Obligations.FetchAdvancesProgramCounter : Prop :=
  ∀ r : Run,
    fetchByte r = (r.st.load r.st.pc,
      { st := { r.st with pc := r.st.pc + 1 }, budget := r.budget - 1,
        trace := r.trace ++ [.read r.st.pc (r.st.load r.st.pc)] })
    ∧ (fetchWord r).1.toNat = (r.st.load (r.st.pc + 1)).toNat * 256 + (r.st.load r.st.pc).toNat
    ∧ (fetchWord r).2 = (fetchByte (fetchByte r).2).2
    ∧ (fetchWord r).2.st = { r.st with pc := r.st.pc + 2 } ∧ (fetchWord r).2.budget = r.budget - 2

/-- R59: `ReadByte` reads memory at an already resolved address, charges one cycle, changes no state and cannot fault. -/
def Obligations.ReadByteReadsResolvedAddress : Prop :=
  ∀ (addr : Word) (r : Run),
    r.st.mem.read addr.toNat = .ok (readByte addr r).1 ∧ (readByte addr r).2.st = r.st
    ∧ (readByte addr r).2.budget = r.budget - 1
    ∧ (readByte addr r).2.trace = r.trace ++ [.read addr (readByte addr r).1]

/-- R61, R62, R63: the immediate, zero page and zero page,X modes. Each fetches one operand byte through `FetchByte` and
charges nothing else, and writes no register but `PC`, no flag, no memory; the zero page address is the operand byte with the
upper byte 0; the index sum wraps within 8 bits; the value at an address is then obtained by `ReadByte`. -/
def Obligations.ModesResolveOneOperandByte : Prop :=
  ∀ r : Run,
    resolve .immediate r = (.literal (fetchByte r).1, (fetchByte r).2)
    ∧ (∃ ea : Word, resolve .zeroPage r = (.address ea, (fetchByte r).2) ∧ ea.toNat = (fetchByte r).1.toNat)
    ∧ (∃ ea : Word, resolve .zeroPageX r = (.address ea, (fetchByte r).2)
        ∧ ea.toNat = ((fetchByte r).1.toNat + r.st.x.toNat) % 256)
    ∧ { (fetchByte r).2.st with pc := r.st.pc } = r.st ∧ (fetchByte r).2.budget = r.budget - 1
    ∧ (∀ v : Byte, operandValue (.literal v) r = (v, r)) ∧ ∀ ea : Word, operandValue (.address ea) r = readByte ea r

/-- 40_fetch_and_addressing.md section 2: zero page,Y (used by no opcode; a model may omit it, D20) and absolute. -/
def Obligations.ZeroPageYAndAbsoluteResolve : Prop :=
  ∀ r : Run,
    (∃ ea : Word, resolve .zeroPageY r = (.address ea, (fetchByte r).2)
        ∧ ea.toNat = ((fetchByte r).1.toNat + r.st.y.toNat) % 256)
    ∧ resolve .absolute r = (.address (fetchWord r).1, (fetchWord r).2)

/-- R68: `Z = 1` iff `A == 0`, `N = 1` iff bit 7 of `A` is set, all other flags untouched, nothing else written, never both;
and after every `LDA` variant the flags are those of the new `A`. -/
def Obligations.LoadSetsZeroAndNegative : Prop :=
  ∀ s : State,
    (s.ldaSetStatus.flags.z = true ↔ s.a = 0) ∧ (s.ldaSetStatus.flags.n = true ↔ 0x80 ≤ s.a.toNat)
    ∧ ¬ (s.ldaSetStatus.flags.z = true ∧ s.ldaSetStatus.flags.n = true)
    ∧ (∀ f : Flag, f ≠ .z → f ≠ .n → hostReadFlag s.ldaSetStatus f = hostReadFlag s f)
    ∧ { s.ldaSetStatus with flags := s.flags } = s
    ∧ (∀ (v : Byte) (t : State), exec (.ldaImm v) s = .next t ∨ exec (.ldaZp v) s = .next t
        ∨ exec (.ldaZpX v) s = .next t → t.ldaSetStatus = t)

/-- 10_state.md section 4: the packed byte `P` represents the seven flags, and bit 5 reads 1. The layout is D14, from general
knowledge (log 9). -/
def Obligations.PackedStatusRepresentsFlags : Prop :=
  (∀ f : Flags, unpackFlags (packFlags f) = f) ∧ (∀ p : Byte, packFlags (unpackFlags p) = p ||| 0x20)
    ∧ ∀ f : Flags, (packFlags f).getLsbD 0 = f.c ∧ (packFlags f).getLsbD 1 = f.z ∧ (packFlags f).getLsbD 2 = f.i
      ∧ (packFlags f).getLsbD 3 = f.d ∧ (packFlags f).getLsbD 4 = f.b ∧ (packFlags f).getLsbD 5 = true
      ∧ (packFlags f).getLsbD 6 = f.v ∧ (packFlags f).getLsbD 7 = f.n

/-! ### The instructions: result, frame and completion -/

/-- R69: `LDA #imm8` completes in every state: `A` is the operand byte, `Z` and `N` are its flags, `PC` is past the two bytes,
everything else is unchanged; as bytes `A9 ii` at `PC` it makes two reads in two cycles. -/
def Obligations.LdaImmediateLoadsOperand : Prop :=
  ∀ (s : State) (imm8 : Byte),
    exec (.ldaImm imm8) s = .next (loadedState s imm8)
    ∧ (s.fault = none → s.load s.pc = 0xA9 → s.load (s.pc + 1) = imm8 →
        step s = .next (loadedState s imm8)
        ∧ ∀ n : Int, stepRun (Run.start s n) =
            { st := loadedState s imm8, budget := n - 2, trace := [.read s.pc 0xA9, .read (s.pc + 1) imm8] })

/-- R70: `LDA zp8` completes in every state with the byte at `zext_16(zp8)`; as bytes `A5 zz` at `PC` it makes three reads in
three cycles. -/
def Obligations.LdaZeroPageLoadsCell : Prop :=
  ∀ (s : State) (zp8 : Byte) (ea : Word), ea.toNat = zp8.toNat →
    exec (.ldaZp zp8) s = .next (loadedState s (s.load ea))
    ∧ (s.fault = none → s.load s.pc = 0xA5 → s.load (s.pc + 1) = zp8 →
        step s = .next (loadedState s (s.load ea))
        ∧ ∀ n : Int, stepRun (Run.start s n) =
            { st := loadedState s (s.load ea), budget := n - 3,
              trace := [.read s.pc 0xA5, .read (s.pc + 1) zp8, .read ea (s.load ea)] })

/-- 41_load_accumulator.md section 4: `LDA zp8,X` completes in every state with the byte at `(zp8 + X) mod 256`; as bytes
`B5 zz` at `PC` it makes three reads. That it costs three cycles is D7. -/
def Obligations.LdaZeroPageXLoadsWrappedCell : Prop :=
  ∀ (s : State) (zp8 : Byte) (ea : Word), ea.toNat = (zp8.toNat + s.x.toNat) % 256 →
    exec (.ldaZpX zp8) s = .next (loadedState s (s.load ea))
    ∧ (s.fault = none → s.load s.pc = 0xB5 → s.load (s.pc + 1) = zp8 →
        step s = .next (loadedState s (s.load ea))
        ∧ ∀ n : Int, stepRun (Run.start s n) =
            { st := loadedState s (s.load ea), budget := n - 3,
              trace := [.read s.pc 0xB5, .read (s.pc + 1) zp8, .read ea (s.load ea)] })

/-- 41_load_accumulator.md section 4, corner cases: with `X = 0` the indexed form behaves as `LDA zp8`. -/
def Obligations.ZeroIndexLoadsAsZeroPage : Prop :=
  ∀ (s : State) (zp8 : Byte), s.x = 0 → exec (.ldaZpX zp8) s = exec (.ldaZp zp8) s

/-- 20_memory.md section 6 and the glossary: the zero page is the only data the loads can reach. Two machines with equal `X`
and equal zero pages load the same byte and the same `Z` and `N`, whatever else they hold. -/
def Obligations.LoadsSeeOnlyZeroPage : Prop :=
  ∀ (s s' t t' : State) (v : Byte) (i : Instr), i = .ldaImm v ∨ i = .ldaZp v ∨ i = .ldaZpX v → s.x = s'.x →
    (∀ addr : Word, InZeroPage addr → s.load addr = s'.load addr) → exec i s = .next t → exec i s' = .next t' →
    t.a = t'.a ∧ t.flags.z = t'.flags.z ∧ t.flags.n = t'.flags.n

/-- 42_subroutine_call.md section 2: `JSR` completes in every state. It jumps to its operand, leaves `SP` lower by 2 modulo 256
(D5), stores the high byte of `PC0 + 2` (modulo 65536, D2) at `0x0100 + SP0` and the low byte in the slot below (the order is
D4), and changes no other byte of memory, no flag and no other register. -/
def Obligations.JsrPushesReturnAddressAndJumps : Prop :=
  ∀ (s : State) (target : Word), ∃ t : State, exec (.jsr target) s = .next t
    ∧ t.pc = target ∧ t.sp.toNat = (s.sp.toNat + 254) % 256
    ∧ (stackSlot s.sp).toNat = 0x0100 + s.sp.toNat
    ∧ (stackSlot (s.sp - 1)).toNat = 0x0100 + (s.sp.toNat + 255) % 256
    ∧ (t.load (stackSlot s.sp)).toNat * 256 + (t.load (stackSlot (s.sp - 1))).toNat = (s.pc.toNat + 2) % 65536
    ∧ (∀ addr : Word, addr ≠ stackSlot s.sp → addr ≠ stackSlot (s.sp - 1) → t.load addr = s.load addr)
    ∧ t.a = s.a ∧ t.x = s.x ∧ t.y = s.y ∧ t.flags = s.flags ∧ t.fault = s.fault

/-- 42_subroutine_call.md section 2 with 20_memory.md section 8: as bytes `20 ll hh` at `PC`, `JSR` jumps to `hh:ll` as it was
before the pushes, wherever it lies; its transactions are three reads and then two writes (D25), in five cycles (D7). -/
def Obligations.JsrFetchesTargetBeforePushing : Prop :=
  ∀ (s : State) (target : Word) (n : Int), s.fault = none → s.load s.pc = 0x20 →
    target.toNat = (s.load (s.pc + 2)).toNat * 256 + (s.load (s.pc + 1)).toNat →
    step s = exec (.jsr target) s
    ∧ (stepRun (Run.start s n)).st.pc = target ∧ (stepRun (Run.start s n)).budget = n - 5
    ∧ ∃ hi lo : Byte, hi.toNat * 256 + lo.toNat = (s.pc.toNat + 2) % 65536
      ∧ (stepRun (Run.start s n)).trace =
          [.read s.pc 0x20, .read (s.pc + 1) (s.load (s.pc + 1)), .read (s.pc + 2) (s.load (s.pc + 2)),
           .write (stackSlot s.sp) hi, .write (stackSlot (s.sp - 1)) lo]

/-- R74, which the spec marks derived: with `SP0 ≠ 0` the two pushes leave the memory, as data, that `write_word` at the lower
slot leaves; with `SP0 = 0` the low byte goes to 0x01FF and 0x00FF keeps its content. -/
def Obligations.JsrPushEqualsWordWrite : Prop :=
  ∀ (s : State) (target : Word) (n : Int), s.mem.wf → ∃ t : State, exec (.jsr target) s = .next t
    ∧ (s.sp ≠ 0 → s.mem.writeWord (0x0100 + s.sp.toNat - 1) (s.pc + 2) n = .ok (t.mem, n - 2))
    ∧ (s.sp = 0 → t.load 0x01FF = lo8 (s.pc + 2) ∧ t.load 0x0100 = hi8 (s.pc + 2) ∧ t.load 0x00FF = s.load 0x00FF)

/-- 20_memory.md section 8: what `JSR` pushed is what the very next fetch returns (D16). A `JSR` into the slots it pushes to,
whose return address has low byte 0xA9, is followed by `LDA #imm8` with the high byte as its operand (the order is D4). -/
def Obligations.PushedBytesAreFetchedNext : Prop :=
  ∀ s : State, s.fault = none → s.load s.pc = 0x20 → s.sp ≠ 0 →
    wordOf (s.load (s.pc + 2)) (s.load (s.pc + 1)) = stackSlot (s.sp - 1) → lo8 (s.pc + 2) = 0xA9 →
    ∃ t u : State, step s = .next t ∧ step t = .next u ∧ u.a = hi8 (s.pc + 2) ∧ u.pc = stackSlot (s.sp - 1) + 2
      ∧ u.sp = s.sp - 2

/-- 60_exceptions.md sections 1 and 2: an illegal opcode takes the fault `IllegalOpcode(opcode, at)`: `PC` past the byte, the
status set, everything else unchanged (D9), one cycle. The completion of the default arm is its fault entry (log 1). -/
def Obligations.IllegalOpcodeTakesFault : Prop :=
  ∀ (s : State) (opcode : Byte),
    exec (.illegal opcode) s = .next { s with pc := s.pc + 1, fault := some (.illegalOpcode opcode s.pc) }
    ∧ (s.fault = none → s.load s.pc = opcode → opcode ∉ legalOpcodes →
        step s = .next { s with pc := s.pc + 1, fault := some (.illegalOpcode opcode s.pc) }
        ∧ ∀ n : Int, stepRun (Run.start s n) =
            { st := { s with pc := s.pc + 1, fault := some (.illegalOpcode opcode s.pc) }, budget := n - 1,
              trace := [.read s.pc opcode] })

/-! ### Decoding -/

/-- Decode of encode, for every well-formed instruction with every operand value, whatever bytes follow
(30_encoding.md sections 1 to 4). -/
def Obligations.DecodeOfEncode : Prop :=
  ∀ (i : Instr) (rest : List Byte), i.wellFormed = true → decode (encode i ++ rest) = .ok (i, rest)

/-- Encode of decode: where the decoder answers, the instruction is well formed and its encoding is the very bytes read
(30_encoding.md sections 1 to 4). -/
def Obligations.EncodeOfDecode : Prop :=
  ∀ (bytes rest : List Byte) (i : Instr), decode bytes = .ok (i, rest) → i.wellFormed = true ∧ encode i ++ rest = bytes

/-- 30_encoding.md section 2: the opcode byte alone decides the length, so decoding fails only for want of bytes. The two
errors are the model's names for that (log 6). -/
def Obligations.DecodeFailsOnlyForWantOfBytes : Prop :=
  decode [] = .error .noBytes
    ∧ ∀ (opcode : Byte) (rest : List Byte),
      (decode (opcode :: rest) = .error (.truncated opcode) ↔
        (opcode = 0x20 ∧ rest.length < 2) ∨ (opcode ∈ legalOpcodes ∧ rest = []))
      ∧ ((∃ p : Instr × List Byte, decode (opcode :: rest) = .ok p) ∨ decode (opcode :: rest) = .error (.truncated opcode))

/-- A sanity statement: the words of 95_test_vectors.md S10 and two illegal bytes of 30_encoding.md section 4 decode to the
instructions they stand for. -/
def Obligations.SpecWordsDecode : Prop :=
  decode [0b10101001, 0b01000010] = .ok (.ldaImm 0x42, [])
    ∧ decode [0b10100101, 0b00010000] = .ok (.ldaZp 0x10, [])
    ∧ decode [0b10110101, 0b00010000] = .ok (.ldaZpX 0x10, [])
    ∧ decode [0b00100000, 0b00110100, 0b00010010] = .ok (.jsr 0x1234, [])
    ∧ decode [0x00, 0x42] = .ok (.illegal 0x00, [0x42]) ∧ decode [0xEA] = .ok (.illegal 0xEA, [])

/-! ### The instruction cycle -/

/-- R51, R76: each opcode byte selects exactly one of five arms, which runs after the opcode fetch; no handler faults once
dispatched; the budget never influences what an instruction computes. -/
def Obligations.DispatchSelectsExactlyOneArm : Prop :=
  ∀ r : Run, r.st.fault = none →
    stepRun r =
      (if r.st.load r.st.pc = 0xA9 then runLda .immediate (fetchByte r).2
       else if r.st.load r.st.pc = 0xA5 then runLda .zeroPage (fetchByte r).2
       else if r.st.load r.st.pc = 0xB5 then runLda .zeroPageX (fetchByte r).2
       else if r.st.load r.st.pc = 0x20 then runJsr (fetchByte r).2
       else { (fetchByte r).2 with
              st := (fetchByte r).2.st.takeFault (.illegalOpcode (r.st.load r.st.pc) r.st.pc) })
    ∧ ((stepRun r).st.fault ≠ none → r.st.load r.st.pc ∉ legalOpcodes)
    ∧ ∀ b : Int, (stepRun { r with budget := b }).st = (stepRun r).st

/-- 43_instruction_cycle.md section 1: when the bytes at `PC` decode to an instruction and no fault stands, it is well formed
and `step` is `exec` of it at that very state; nothing else is done around it. -/
def Obligations.StepRunsDecodedInstruction : Prop :=
  ∀ (s : State) (i : Instr) (rest : List Byte), s.fault = none →
    decode [s.load s.pc, s.load (s.pc + 1), s.load (s.pc + 2)] = .ok (i, rest) →
    i.wellFormed = true ∧ step s = exec i s

/-- 43_instruction_cycle.md section 1: decoding the whole instruction and running `exec` reaches the state that the spec's
`Step()` reaches, which fetches byte by byte (log 6). -/
def Obligations.StepAgreesWithByteByByteCycle : Prop :=
  ∀ (s : State) (n : Int), s.fault = none → step s = .next (stepRun (Run.start s n)).st

/-- 43_instruction_cycle.md section 1: a step of an unfaulted machine always completes, and it leaves a fault exactly where
the opcode byte at `PC` is none of the four (that the status records it is D9). -/
def Obligations.UnfaultedStepCompletes : Prop :=
  ∀ s : State, s.fault = none → ∃ t : State, step s = .next t ∧ (t.fault = none ↔ s.load s.pc ∈ legalOpcodes)

/-- 43_instruction_cycle.md section 3: a faulted machine takes no step: `step` reports the standing fault, `Step()` under a
budget changes nothing, `Execute(n)` is refused for every `n`. The refusal is D23; for `n ≤ 0` it is the model's choice
(log 2), and that `step` answers it as a fault is log 1. -/
def Obligations.FaultedMachineTakesNoStep : Prop :=
  ∀ (s : State) (f : Fault) (n : Int), s.fault = some f →
    step s = .fault f ∧ stepRun (Run.start s n) = Run.start s n
    ∧ execute n s = { outcome := .refused f, final := Run.start s n }

/-- 43_instruction_cycle.md section 2, the cost table: 5, 3, 2, 3, and 1 for an illegal byte, and each cycle is one byte moved
over the memory interface. The figures are D7. -/
def Obligations.StepChargesOneCyclePerByte : Prop :=
  ∀ r : Run, r.st.fault = none →
    (stepRun r).budget = r.budget - cycleCost (r.st.load r.st.pc)
    ∧ ∃ moved : List Access, (stepRun r).trace = r.trace ++ moved ∧ moved.length = cycleCost (r.st.load r.st.pc)

/-- D7: `EXTRA_CYCLES` changes no architectural state and no transaction, and for a completed instruction it is added to the
charge at the end; an illegal opcode completes none (log 4). -/
def Obligations.ExtraCyclesChangeOnlyBudget : Prop :=
  ∀ (extra : Byte → Nat) (r : Run), r.st.fault = none →
    (stepRunWith extra r).st = (stepRun r).st ∧ (stepRunWith extra r).trace = (stepRun r).trace
    ∧ (stepRunWith extra r).budget = (stepRun r).budget
        - (if r.st.load r.st.pc ∈ legalOpcodes then (extra (r.st.load r.st.pc) : Int) else 0)

/-! ### Whole-machine rules -/

/-- Every step keeps the invariant: canonical memory, consistent flags (R68), a truthful fault status (R88). -/
def Obligations.StepKeepsInvariant : Prop :=
  ∀ s t : State, s.Inv → step s = .next t → t.Inv

/-- The state after `Reset` meets the invariant. -/
def Obligations.ResetStateMeetsInvariant : Prop := State.reset.Inv

/-- Every run of `Execute` keeps the invariant, however it ends. -/
def Obligations.ExecuteKeepsInvariant : Prop :=
  ∀ (n : Int) (s : State), s.Inv → (execute n s).final.st.Inv

/-- 10_state.md sections 1, 3 and 4, what a step leaves alone, by opcode byte: only `JSR` writes memory or `SP`; only the
loads write `A`, `Z` or `N`; no instruction writes `X`, `Y`, `C`, `I`, `D`, `B`, `V`. -/
def Obligations.StepFrameByOpcode : Prop :=
  ∀ s t : State, step s = .next t →
    (s.load s.pc ≠ 0x20 → t.sp = s.sp ∧ ∀ addr : Word, t.load addr = s.load addr)
    ∧ (s.load s.pc ∉ [(0xA5 : Byte), 0xA9, 0xB5] → t.a = s.a ∧ t.flags = s.flags)
    ∧ (s.load s.pc ∈ legalOpcodes → t.fault = none)
    ∧ t.x = s.x ∧ t.y = s.y ∧ ∀ f : Flag, f ≠ .z → f ≠ .n → hostReadFlag t f = hostReadFlag s f

/-- 10_state.md section 2: after a step `PC` is the operand of a `JSR`, and otherwise past the instruction: by 2 for a load, by
1 for an illegal byte, modulo 65536 (D2). -/
def Obligations.ProgramCounterAfterStep : Prop :=
  ∀ s t : State, step s = .next t →
    (s.load s.pc = 0x20 → t.pc.toNat = (s.load (s.pc + 2)).toNat * 256 + (s.load (s.pc + 1)).toNat)
    ∧ (s.load s.pc ∈ [(0xA5 : Byte), 0xA9, 0xB5] → t.pc.toNat = (s.pc.toNat + 2) % 65536)
    ∧ (s.load s.pc ∉ legalOpcodes → t.pc.toNat = (s.pc.toNat + 1) % 65536)

/-- 20_memory.md sections 1 and 6, 10_state.md section 1: no run of `Execute` writes a byte outside the stack page, nor `X`,
`Y`, `C`, `I`, `D`, `B`, `V`. -/
def Obligations.ExecuteWritesOnlyStackPage : Prop :=
  ∀ (n : Int) (s : State),
    (∀ addr : Word, ¬ InStackPage addr → (execute n s).final.st.load addr = s.load addr)
    ∧ (execute n s).final.st.x = s.x ∧ (execute n s).final.st.y = s.y
    ∧ ∀ f : Flag, f ≠ .z → f ≠ .n → hostReadFlag (execute n s).final.st f = hostReadFlag s f

/-- 43_instruction_cycle.md section 2, `Execute(n)` of an unfaulted machine: for `n ≤ 0` nothing runs (D21); for `n > 0` one
`Step()` runs, a fault ends the run, and otherwise the run is that of `Execute` at the remaining budget. It says that the
bound on the iterations never cuts a run short. -/
def Obligations.ExecuteUnrollsOneStep : Prop :=
  ∀ (n : Int) (s : State), s.fault = none →
    (n ≤ 0 → execute n s = { outcome := .consumed 0, final := Run.start s n })
    ∧ (0 < n → ∀ r : Run, r = stepRun (Run.start s n) →
        (∀ f : Fault, r.st.fault = some f → execute n s = { outcome := .faulted f, final := r })
        ∧ (r.st.fault = none →
            (execute n s).final.st = (execute r.budget r.st).final.st
            ∧ (execute n s).final.budget = (execute r.budget r.st).final.budget
            ∧ (execute n s).final.trace = r.trace ++ (execute r.budget r.st).final.trace
            ∧ (∀ c : Int, (execute r.budget r.st).outcome = .consumed c →
                (execute n s).outcome = .consumed (c + (n - r.budget)))
            ∧ (∀ f : Fault, (execute r.budget r.st).outcome = .faulted f → (execute n s).outcome = .faulted f)))

/-- 43_instruction_cycle.md sections 2 and 4: a run ends in one of two ways. Normally, with the budget at or below zero and
overdrawn by at most 4 (D6), reporting the cycles consumed (D21); or by the fault that the state then holds. -/
def Obligations.ExecuteEndsAtBudgetOrFault : Prop :=
  ∀ (n : Int) (s : State), s.fault = none →
    ((∃ c : Int, (execute n s).outcome = .consumed c ∧ c = n - (execute n s).final.budget
        ∧ (execute n s).final.st.fault = none ∧ (execute n s).final.budget ≤ 0
        ∧ (0 < n → -4 ≤ (execute n s).final.budget))
      ∨ (∃ f : Fault, (execute n s).outcome = .faulted f ∧ (execute n s).final.st.fault = some f
        ∧ 0 < n ∧ 0 ≤ (execute n s).final.budget))

/-- 70_reset_and_hazards.md section 4: the cycles a run consumes are the bytes it moves over the memory interface (D7). -/
def Obligations.ExecuteConsumesOneCyclePerByte : Prop :=
  ∀ (n : Int) (s : State), n - (execute n s).final.budget = ((execute n s).final.trace.length : Int)

/-- 43_instruction_cycle.md sections 1 and 2: `Execute` is a wrapper over the single step (D22): its end state is that of some
number of steps of the machine, at most `n` of them, and at most half of `n + 1` when it ends normally (R84, which the spec
marks derived). -/
def Obligations.ExecuteIsIteratedStep : Prop :=
  ∀ (n : Int) (s : State), s.fault = none →
    ∃ k : Nat, Host.Core.run Sys2Proof.core k s = .next (execute n s).final.st ∧ k ≤ n.toNat
      ∧ ((execute n s).final.st.fault = none → 2 * k ≤ n.toNat + 1)

/-! ### The host interface -/

/-- 60_exceptions.md section 1 and 70_reset_and_hazards.md section 1: a host call fails only with `OutOfRange` of an address
outside memory; no call but `Reset` changes the fault status (D19); every call keeps memory canonical. -/
def Obligations.HostCallsKeepFaultAndCanonicalMemory : Prop :=
  ∀ (call : HostCall) (s : State),
    (∀ f : Fault, hostCall call s = .error f → ∃ addr : Int, f = .outOfRange addr ∧ (addr < 0 ∨ 65536 ≤ addr))
    ∧ (∀ t : State, hostCall call s = .ok t → (call ≠ .reset → t.fault = s.fault) ∧ (s.mem.wf → t.mem.wf))

/-- 10_state.md section 7: between runs the host may set any register, `PC` too, or flag to any value of its width, one at a
time, and read it back, and every other register, flag and cell reads as before (D26). -/
def Obligations.HostSetsOneRegisterOrFlag : Prop :=
  ∀ (s : State) (q r : Register) (f g : Flag) (v : Byte) (b : Bool) (w : Word),
    (∃ t : State, hostCall (.setRegister r v) s = .ok t ∧ hostReadRegister t q = (if q = r then v else hostReadRegister s q)
      ∧ hostReadPc t = hostReadPc s ∧ t.flags = s.flags ∧ t.mem = s.mem)
    ∧ (∃ t : State, hostCall (.setFlag f b) s = .ok t ∧ hostReadFlag t g = (if g = f then b else hostReadFlag s g)
      ∧ hostReadRegister t q = hostReadRegister s q ∧ hostReadPc t = hostReadPc s ∧ t.mem = s.mem)
    ∧ (∃ t : State, hostCall (.setPc w) s = .ok t ∧ hostReadPc t = w ∧ { t with pc := s.pc } = s)
end

