-- ==== Sys2Proof/Laws/Decode.lean ====
section
/-! SUPPORT. What the opcode map and the decoder answer, row by row. -/
namespace Sys2Proof

@[simp] theorem opcodeRow_jsr : opcodeRow 0x20 = .jsr := by decide
@[simp] theorem opcodeRow_ldaZp : opcodeRow 0xA5 = .ldaZp := by decide
@[simp] theorem opcodeRow_ldaImm : opcodeRow 0xA9 = .ldaImm := by decide
@[simp] theorem opcodeRow_ldaZpX : opcodeRow 0xB5 = .ldaZpX := by decide

/-- Any other byte is the default arm's. -/
theorem opcodeRow_of_not_legal {op : Byte} (h : op ∉ legalOpcodes) : opcodeRow op = .illegal := by
  simp only [legalOpcodes, List.mem_cons, List.not_mem_nil, or_false, not_or] at h
  simp only [opcodeRow, h.1, h.2.1, h.2.2.1, h.2.2.2, if_false]

/-- The five cases of an opcode byte. -/
theorem opcode_cases (op : Byte) :
    op = 0x20 ∨ op = 0xA5 ∨ op = 0xA9 ∨ op = 0xB5 ∨ op ∉ legalOpcodes := by
  simp only [legalOpcodes, List.mem_cons, List.not_mem_nil, or_false, not_or]
  tauto

theorem decodeBytes_jsr (b1 b2 : Byte) : decodeBytes 0x20 b1 b2 = .jsr (wordOf b2 b1) := rfl
theorem decodeBytes_ldaZp (b1 b2 : Byte) : decodeBytes 0xA5 b1 b2 = .ldaZp b1 := rfl
theorem decodeBytes_ldaImm (b1 b2 : Byte) : decodeBytes 0xA9 b1 b2 = .ldaImm b1 := rfl
theorem decodeBytes_ldaZpX (b1 b2 : Byte) : decodeBytes 0xB5 b1 b2 = .ldaZpX b1 := rfl

theorem decodeBytes_of_not_legal {op : Byte} (h : op ∉ legalOpcodes) (b1 b2 : Byte) :
    decodeBytes op b1 b2 = .illegal op := by
  simp only [decodeBytes, opcodeRow_of_not_legal h]

/-- The default arm is well formed exactly where its byte is none of the four (R50). -/
theorem wellFormed_illegal {op : Byte} : (Instr.illegal op).wellFormed = true ↔ op ∉ legalOpcodes := by
  simp [Instr.wellFormed]

end Sys2Proof
end

