-- ==== Sys2Proof/Laws/Memory.lean ====
section
/-! SUPPORT. The laws of memory: a read after a write, the canonical form under every operation, and that memories which
read alike are equal. -/
namespace Sys2Proof.Machine

@[simp] theorem Memory.get_nil (a : Nat) : Memory.get [] a = Config.resetCell := rfl

theorem Memory.get_cons (c : Host.Cell) (m : Memory) (a : Nat) :
    Memory.get (c :: m) a = if c.1 = a then c.2 else Memory.get m a := rfl

/-- An address that no entry lists reads as the reset cell. -/
theorem Memory.get_of_absent {m : Memory} {a : Nat} (h : ∀ c ∈ m, c.1 ≠ a) : m.get a = Config.resetCell := by
  induction m with
  | nil => rfl
  | cons c m ih =>
    rw [Memory.get_cons, if_neg (h c (by simp)), ih fun d hd => h d (by simp [hd])]

theorem Memory.get_filter_same (m : Memory) (a : Nat) :
    Memory.get (m.filter (fun c => c.1 != a)) a = Config.resetCell :=
  Memory.get_of_absent fun c hc => by simpa using (List.mem_filter.mp hc).2

theorem Memory.get_filter_ne (m : Memory) {a b : Nat} (h : b ≠ a) :
    Memory.get (m.filter (fun c => c.1 != a)) b = m.get b := by
  induction m with
  | nil => rfl
  | cons c m ih =>
    by_cases hc : c.1 = a
    · simp [hc, Memory.get_cons, ih, h.symm]
    · simp [hc, Memory.get_cons, ih]

theorem Memory.get_place_same (a : Nat) (v : Byte) {m : Memory} (h : ∀ c ∈ m, c.1 ≠ a) :
    (Memory.place a v m).get a = v := by
  induction m with
  | nil => simp [Memory.place, Memory.get_cons]
  | cons c m ih =>
    have hc : c.1 ≠ a := h c (by simp)
    by_cases hl : a < c.1
    · simp [Memory.place, hl, Memory.get_cons]
    · simp [Memory.place, hl, Memory.get_cons, hc, ih fun d hd => h d (by simp [hd])]

theorem Memory.get_place_ne {a b : Nat} (v : Byte) (m : Memory) (h : b ≠ a) :
    (Memory.place a v m).get b = m.get b := by
  induction m with
  | nil => simp [Memory.place, Memory.get_cons, h.symm]
  | cons c m ih =>
    by_cases hl : a < c.1
    · simp [Memory.place, hl, Memory.get_cons, h.symm]
    · simp [Memory.place, hl, Memory.get_cons, ih]

/-- A read after a write to the same cell gives the byte written. -/
@[simp] theorem Memory.get_set_same (m : Memory) (a : Nat) (v : Byte) : (m.set a v).get a = v := by
  by_cases hv : v = Config.resetCell
  · simp [Memory.set, hv, Memory.get_filter_same]
  · simp only [Memory.set, hv, if_false]
    exact Memory.get_place_same a v fun c hc => by simpa using (List.mem_filter.mp hc).2

/-- A write leaves every other cell alone. -/
theorem Memory.get_set_ne (m : Memory) {a b : Nat} (v : Byte) (h : b ≠ a) : (m.set a v).get b = m.get b := by
  by_cases hv : v = Config.resetCell
  · simp [Memory.set, hv, Memory.get_filter_ne m h]
  · simp [Memory.set, hv, Memory.get_place_ne v _ h, Memory.get_filter_ne m h]

theorem Memory.mem_place {c : Host.Cell} {a : Nat} {v : Byte} {m : Memory} (h : c ∈ Memory.place a v m) :
    c = (a, v) ∨ c ∈ m := by
  induction m with
  | nil => exact .inl (by simpa [Memory.place] using h)
  | cons d m ih =>
    by_cases hl : a < d.1
    · simpa [Memory.place, hl] using h
    · simp only [Memory.place, hl, if_false, List.mem_cons] at h
      rcases h with rfl | h
      · exact .inr (by simp)
      · rcases ih h with h | h
        · exact .inl h
        · exact .inr (by simp [h])

theorem Memory.pairwise_place {a : Nat} {v : Byte} {m : Memory} (hs : m.Pairwise (fun p q => p.1 < q.1))
    (h : ∀ c ∈ m, c.1 ≠ a) : (Memory.place a v m).Pairwise (fun p q => p.1 < q.1) := by
  induction m with
  | nil => simp [Memory.place]
  | cons d m ih =>
    obtain ⟨hd, hm⟩ := List.pairwise_cons.mp hs
    have hne : d.1 ≠ a := h d (by simp)
    by_cases hl : a < d.1
    · simp only [Memory.place, hl, if_true]
      refine List.pairwise_cons.mpr ⟨fun c hc => ?_, hs⟩
      rcases List.mem_cons.mp hc with rfl | hc
      · exact hl
      · exact lt_trans hl (hd c hc)
    · simp only [Memory.place, hl, if_false]
      refine List.pairwise_cons.mpr ⟨fun c hc => ?_, ih hm fun c hc => h c (by simp [hc])⟩
      rcases Memory.mem_place hc with rfl | hc
      · exact lt_of_le_of_ne (not_lt.mp hl) hne
      · exact hd c hc

/-- A write keeps the canonical form. -/
theorem Memory.wf_set {m : Memory} (h : m.wf) {a : Nat} (ha : a < Config.memSize) (v : Byte) : (m.set a v).wf := by
  have hf : (m.filter (fun c => c.1 != a)).Pairwise (fun p q => p.1 < q.1) := h.1.filter _
  have hm : ∀ c ∈ m.filter (fun c => c.1 != a), c.1 < Config.memSize ∧ c.2 ≠ Config.resetCell :=
    fun c hc => h.2 c (List.mem_filter.mp hc).1
  by_cases hv : v = Config.resetCell
  · simp only [Memory.set, hv, if_true]
    exact ⟨hf, hm⟩
  · simp only [Memory.set, hv, if_false]
    refine ⟨Memory.pairwise_place hf fun c hc => by simpa using (List.mem_filter.mp hc).2, fun c hc => ?_⟩
    rcases Memory.mem_place hc with rfl | hc
    · exact ⟨ha, hv⟩
    · exact hm c hc

/-- A 16-bit address is in range (R31). -/
theorem word_lt_memSize (a : Word) : a.toNat < Config.memSize := a.isLt

theorem State.store_wf {s : State} (h : s.mem.wf) (a : Word) (v : Byte) : (s.store a v).mem.wf :=
  Memory.wf_set h (word_lt_memSize a) v

theorem Memory.wf_nil : Memory.wf [] := ⟨List.Pairwise.nil, by simp⟩

theorem Memory.wf_zeroAll (m : Memory) : m.zeroAll.wf := Memory.wf_nil

theorem State.reset_mem_wf : State.reset.mem.wf := Memory.wf_nil

theorem Memory.get_of_lt {m : Memory} {a : Nat} (h : ∀ c ∈ m, a < c.1) : m.get a = Config.resetCell :=
  Memory.get_of_absent fun c hc => (h c hc).ne'

/-- Memories in canonical form that read alike are equal data. -/
theorem Memory.ext_get {m m' : Memory} (h : m.wf) (h' : m'.wf) (hg : ∀ a, m.get a = m'.get a) : m = m' := by
  induction m generalizing m' with
  | nil =>
    cases m' with
    | nil => rfl
    | cons c m' =>
      have hc := hg c.1
      simp only [Memory.get_nil, Memory.get_cons, if_true] at hc
      exact absurd hc.symm (h'.2 c (by simp)).2
  | cons c m ih =>
    cases m' with
    | nil =>
      have hc := hg c.1
      simp only [Memory.get_nil, Memory.get_cons, if_true] at hc
      exact absurd hc (h.2 c (by simp)).2
    | cons c' m' =>
      obtain ⟨hc, hm⟩ := List.pairwise_cons.mp h.1
      obtain ⟨hc', hm'⟩ := List.pairwise_cons.mp h'.1
      have key : c.1 = c'.1 := by
        rcases lt_trichotomy c.1 c'.1 with hl | he | hl
        · have e := hg c.1
          rw [Memory.get_of_lt (m := c' :: m')] at e
          · rw [Memory.get_cons, if_pos rfl] at e
            exact absurd e (h.2 c (by simp)).2
          · intro d hd
            rcases List.mem_cons.mp hd with rfl | hd
            · exact hl
            · exact lt_trans hl (hc' d hd)
        · exact he
        · have e := hg c'.1
          rw [Memory.get_of_lt (m := c :: m)] at e
          · rw [Memory.get_cons, if_pos rfl] at e
            exact absurd e.symm (h'.2 c' (by simp)).2
          · intro d hd
            rcases List.mem_cons.mp hd with rfl | hd
            · exact hl
            · exact lt_trans hl (hc d hd)
      have hv : c.2 = c'.2 := by simpa [Memory.get_cons, key] using hg c.1
      have ht : m = m' := by
        refine ih ⟨hm, fun d hd => h.2 d (by simp [hd])⟩ ⟨hm', fun d hd => h'.2 d (by simp [hd])⟩ fun a => ?_
        by_cases ha : a = c.1
        · subst ha
          rw [Memory.get_of_lt hc, Memory.get_of_lt (key ▸ hc')]
        · have e := hg a
          rwa [Memory.get_cons, Memory.get_cons, if_neg (Ne.symm ha), if_neg (key ▸ Ne.symm ha)] at e
      rw [ht, Prod.ext key hv]

/-! The contract over integer addresses, in range and out of range. -/

theorem Memory.read_inRange (m : Memory) {a : Int} (h : InRange a) : m.read a = .ok (m.get a.toNat) := if_pos h
theorem Memory.read_outOfRange (m : Memory) {a : Int} (h : ¬ InRange a) : m.read a = .error (.outOfRange a) := if_neg h
theorem Memory.write_inRange (m : Memory) {a : Int} (v : Byte) (h : InRange a) :
    m.write a v = .ok (m.set a.toNat v) := if_pos h
theorem Memory.write_outOfRange (m : Memory) {a : Int} (v : Byte) (h : ¬ InRange a) :
    m.write a v = .error (.outOfRange a) := if_neg h

theorem Memory.writeWord_inRange (m : Memory) {a : Int} (w : Word) (n : Int) (h : InRange a) (h' : InRange (a + 1)) :
    m.writeWord a w n = .ok ((m.set a.toNat (lo8 w)).set (a + 1).toNat (hi8 w), n - 2) := by
  rw [Memory.writeWord, if_neg (not_not.mpr h), if_neg (not_not.mpr h')]

/-- The one law of two writes: to different cells they commute, as data. -/
theorem Memory.set_comm {m : Memory} (h : m.wf) {a b : Nat} (ha : a < Config.memSize) (hb : b < Config.memSize)
    (hab : a ≠ b) (v w : Byte) : (m.set a v).set b w = (m.set b w).set a v := by
  refine Memory.ext_get (Memory.wf_set (Memory.wf_set h ha v) hb w) (Memory.wf_set (Memory.wf_set h hb w) ha v) fun k => ?_
  by_cases hka : k = a
  · rw [hka, Memory.get_set_ne _ _ hab, Memory.get_set_same, Memory.get_set_same]
  · by_cases hkb : k = b
    · rw [hkb, Memory.get_set_same, Memory.get_set_ne _ _ hab.symm, Memory.get_set_same]
    · rw [Memory.get_set_ne _ _ hkb, Memory.get_set_ne _ _ hka, Memory.get_set_ne _ _ hka, Memory.get_set_ne _ _ hkb]

/-- A successful `write` keeps the canonical form. -/
theorem Memory.wf_write {m m' : Memory} (h : m.wf) {a : Int} {v : Byte} (hw : m.write a v = .ok m') : m'.wf := by
  unfold Memory.write at hw
  split at hw
  · rename_i hr
    cases hw
    exact Memory.wf_set h (by omega) v
  · cases hw

/-- A successful `write_word` keeps the canonical form. -/
theorem Memory.wf_writeWord {m : Memory} (h : m.wf) {a : Int} {w : Word} {n : Int} {p : Memory × Int}
    (hw : m.writeWord a w n = .ok p) : p.1.wf := by
  unfold Memory.writeWord at hw
  split at hw
  · cases hw
  · split at hw
    · cases hw
    · rename_i h1 h2
      cases hw
      exact Memory.wf_set (Memory.wf_set h (by omega) _) (by omega) _

end Sys2Proof.Machine
end

