-- ==== Sys2Proof/Laws/State.lean ====
section
/-! SUPPORT. The small lemmas of the state: one per field per named update, so that no proof unfolds a record update. -/
namespace Sys2Proof.Machine

variable (s : State)

@[simp] theorem State.setA_a (v : Byte) : (s.setA v).a = v := rfl
@[simp] theorem State.setA_x (v : Byte) : (s.setA v).x = s.x := rfl
@[simp] theorem State.setA_y (v : Byte) : (s.setA v).y = s.y := rfl
@[simp] theorem State.setA_pc (v : Byte) : (s.setA v).pc = s.pc := rfl
@[simp] theorem State.setA_sp (v : Byte) : (s.setA v).sp = s.sp := rfl
@[simp] theorem State.setA_flags (v : Byte) : (s.setA v).flags = s.flags := rfl
@[simp] theorem State.setA_mem (v : Byte) : (s.setA v).mem = s.mem := rfl
@[simp] theorem State.setA_fault (v : Byte) : (s.setA v).fault = s.fault := rfl

@[simp] theorem State.setSp_a (v : Byte) : (s.setSp v).a = s.a := rfl
@[simp] theorem State.setSp_x (v : Byte) : (s.setSp v).x = s.x := rfl
@[simp] theorem State.setSp_y (v : Byte) : (s.setSp v).y = s.y := rfl
@[simp] theorem State.setSp_pc (v : Byte) : (s.setSp v).pc = s.pc := rfl
@[simp] theorem State.setSp_sp (v : Byte) : (s.setSp v).sp = v := rfl
@[simp] theorem State.setSp_flags (v : Byte) : (s.setSp v).flags = s.flags := rfl
@[simp] theorem State.setSp_mem (v : Byte) : (s.setSp v).mem = s.mem := rfl
@[simp] theorem State.setSp_fault (v : Byte) : (s.setSp v).fault = s.fault := rfl

@[simp] theorem State.setPc_a (t : Word) : (s.setPc t).a = s.a := rfl
@[simp] theorem State.setPc_x (t : Word) : (s.setPc t).x = s.x := rfl
@[simp] theorem State.setPc_y (t : Word) : (s.setPc t).y = s.y := rfl
@[simp] theorem State.setPc_pc (t : Word) : (s.setPc t).pc = t := rfl
@[simp] theorem State.setPc_sp (t : Word) : (s.setPc t).sp = s.sp := rfl
@[simp] theorem State.setPc_flags (t : Word) : (s.setPc t).flags = s.flags := rfl
@[simp] theorem State.setPc_mem (t : Word) : (s.setPc t).mem = s.mem := rfl
@[simp] theorem State.setPc_fault (t : Word) : (s.setPc t).fault = s.fault := rfl

@[simp] theorem State.advancePc_a (k : Word) : (s.advancePc k).a = s.a := rfl
@[simp] theorem State.advancePc_x (k : Word) : (s.advancePc k).x = s.x := rfl
@[simp] theorem State.advancePc_y (k : Word) : (s.advancePc k).y = s.y := rfl
@[simp] theorem State.advancePc_pc (k : Word) : (s.advancePc k).pc = s.pc + k := rfl
@[simp] theorem State.advancePc_sp (k : Word) : (s.advancePc k).sp = s.sp := rfl
@[simp] theorem State.advancePc_flags (k : Word) : (s.advancePc k).flags = s.flags := rfl
@[simp] theorem State.advancePc_mem (k : Word) : (s.advancePc k).mem = s.mem := rfl
@[simp] theorem State.advancePc_fault (k : Word) : (s.advancePc k).fault = s.fault := rfl

@[simp] theorem State.setFlags_a (f : Flags) : (s.setFlags f).a = s.a := rfl
@[simp] theorem State.setFlags_x (f : Flags) : (s.setFlags f).x = s.x := rfl
@[simp] theorem State.setFlags_y (f : Flags) : (s.setFlags f).y = s.y := rfl
@[simp] theorem State.setFlags_pc (f : Flags) : (s.setFlags f).pc = s.pc := rfl
@[simp] theorem State.setFlags_sp (f : Flags) : (s.setFlags f).sp = s.sp := rfl
@[simp] theorem State.setFlags_flags (f : Flags) : (s.setFlags f).flags = f := rfl
@[simp] theorem State.setFlags_mem (f : Flags) : (s.setFlags f).mem = s.mem := rfl
@[simp] theorem State.setFlags_fault (f : Flags) : (s.setFlags f).fault = s.fault := rfl

@[simp] theorem State.store_a (addr : Word) (v : Byte) : (s.store addr v).a = s.a := rfl
@[simp] theorem State.store_x (addr : Word) (v : Byte) : (s.store addr v).x = s.x := rfl
@[simp] theorem State.store_y (addr : Word) (v : Byte) : (s.store addr v).y = s.y := rfl
@[simp] theorem State.store_pc (addr : Word) (v : Byte) : (s.store addr v).pc = s.pc := rfl
@[simp] theorem State.store_sp (addr : Word) (v : Byte) : (s.store addr v).sp = s.sp := rfl
@[simp] theorem State.store_flags (addr : Word) (v : Byte) : (s.store addr v).flags = s.flags := rfl
@[simp] theorem State.store_mem (addr : Word) (v : Byte) : (s.store addr v).mem = s.mem.set addr.toNat v := rfl
@[simp] theorem State.store_fault (addr : Word) (v : Byte) : (s.store addr v).fault = s.fault := rfl

@[simp] theorem State.takeFault_a (f : Fault) : (s.takeFault f).a = s.a := rfl
@[simp] theorem State.takeFault_x (f : Fault) : (s.takeFault f).x = s.x := rfl
@[simp] theorem State.takeFault_y (f : Fault) : (s.takeFault f).y = s.y := rfl
@[simp] theorem State.takeFault_pc (f : Fault) : (s.takeFault f).pc = s.pc := rfl
@[simp] theorem State.takeFault_sp (f : Fault) : (s.takeFault f).sp = s.sp := rfl
@[simp] theorem State.takeFault_flags (f : Fault) : (s.takeFault f).flags = s.flags := rfl
@[simp] theorem State.takeFault_mem (f : Fault) : (s.takeFault f).mem = s.mem := rfl
@[simp] theorem State.takeFault_fault (f : Fault) : (s.takeFault f).fault = some f := rfl

@[simp] theorem State.ldaSetStatus_a : (s.ldaSetStatus).a = s.a := rfl
@[simp] theorem State.ldaSetStatus_x : (s.ldaSetStatus).x = s.x := rfl
@[simp] theorem State.ldaSetStatus_y : (s.ldaSetStatus).y = s.y := rfl
@[simp] theorem State.ldaSetStatus_pc : (s.ldaSetStatus).pc = s.pc := rfl
@[simp] theorem State.ldaSetStatus_sp : (s.ldaSetStatus).sp = s.sp := rfl
@[simp] theorem State.ldaSetStatus_flags : (s.ldaSetStatus).flags = loadFlags s.a s.flags := rfl
@[simp] theorem State.ldaSetStatus_mem : (s.ldaSetStatus).mem = s.mem := rfl
@[simp] theorem State.ldaSetStatus_fault : (s.ldaSetStatus).fault = s.fault := rfl

/-- A load depends on memory alone. -/
theorem State.load_eq (addr : Word) : s.load addr = s.mem.get addr.toNat := rfl

/-- Every update but a store leaves every byte as it was. -/
theorem State.load_of_mem_eq {s t : State} (h : t.mem = s.mem) (addr : Word) : t.load addr = s.load addr := by
  rw [State.load_eq, State.load_eq, h]

@[simp] theorem Run.start_st (n : Int) : (Run.start s n).st = s := rfl
@[simp] theorem Run.start_budget (n : Int) : (Run.start s n).budget = n := rfl
@[simp] theorem Run.start_trace (n : Int) : (Run.start s n).trace = [] := rfl
@[simp] theorem Run.charge_st (r : Run) (t : Access) : (r.charge t).st = r.st := rfl
@[simp] theorem Run.charge_budget (r : Run) (t : Access) : (r.charge t).budget = r.budget - 1 := rfl
@[simp] theorem Run.charge_trace (r : Run) (t : Access) : (r.charge t).trace = r.trace ++ [t] := rfl

end Sys2Proof.Machine
end

