-- ==== Sys2Proof/Laws/Primitives.lean ====
section
/-! SUPPORT. What each primitive and each addressing mode does, said once. -/
namespace Sys2Proof.Machine

variable (r : Run)

@[simp] theorem fetchByte_fst : (fetchByte r).1 = r.st.load r.st.pc := rfl

/-- Everything `FetchByte` does to the run. -/
@[simp] theorem fetchByte_snd : (fetchByte r).2 =
    { st := r.st.advancePc 1, budget := r.budget - 1, trace := r.trace ++ [.read r.st.pc (r.st.load r.st.pc)] } := rfl

@[simp] theorem fetchWord_fst : (fetchWord r).1 = wordOf (r.st.load (r.st.pc + 1)) (r.st.load r.st.pc) := rfl

/-- Everything `FetchWord` does to the run. -/
theorem fetchWord_snd : (fetchWord r).2 =
    { st := (r.st.advancePc 1).advancePc 1, budget := r.budget - 1 - 1,
      trace := r.trace ++ [.read r.st.pc (r.st.load r.st.pc)]
        ++ [.read (r.st.pc + 1) (r.st.load (r.st.pc + 1))] } := rfl

@[simp] theorem readByte_fst (a : Word) : (readByte a r).1 = r.st.load a := rfl

@[simp] theorem readByte_snd (a : Word) : (readByte a r).2 = r.charge (.read a (r.st.load a)) := rfl

/-- Everything `Push` does to the run. -/
theorem push_eq (b : Byte) : push b r =
    { st := (r.st.store (stackSlot r.st.sp) b).setSp (r.st.sp - 1), budget := r.budget - 1,
      trace := r.trace ++ [.write (stackSlot r.st.sp) b] } := rfl

/-- Two increments of `PC` are one. -/
theorem State.advancePc_advancePc (s : State) (j k : Word) : (s.advancePc j).advancePc k = s.advancePc (j + k) := by
  simp [State.advancePc, BitVec.add_assoc]

/-- A stack slot, as a number, is `0x0100 + SP` (R13). -/
theorem stackSlot_toNat (sp : Byte) : (stackSlot sp).toNat = 0x100 + sp.toNat := by
  have h := sp.isLt
  have b : Config.stackBase.toNat = 0x100 := rfl
  rw [stackSlot, BitVec.toNat_add, zext16_toNat, b]
  omega

theorem stackSlot_inj {p q : Byte} (h : stackSlot p = stackSlot q) : p = q := by
  have h' := congrArg BitVec.toNat h
  rw [stackSlot_toNat, stackSlot_toNat] at h'
  exact BitVec.eq_of_toNat_eq (by omega)

/-- The two slots of a `JSR` differ. -/
theorem stackSlot_ne_below (p : Byte) : stackSlot p ≠ stackSlot (p - 1) := by
  intro h
  have e := stackSlot_inj h
  bv_omega

/-- Away from the wrap, the slot below is the address below. -/
theorem stackSlot_below_add_one {p : Byte} (h : p ≠ 0) : stackSlot (p - 1) + 1 = stackSlot p := by
  apply BitVec.eq_of_toNat_eq
  have e : (p - 1).toNat + 1 = p.toNat := by bv_omega
  have hp := p.isLt
  have one : (1 : Word).toNat = 1 := rfl
  rw [BitVec.toNat_add, stackSlot_toNat, stackSlot_toNat, one, ← e]
  omega

theorem zeroPageAddr_toNat (zp : Byte) : (zeroPageAddr zp).toNat = zp.toNat := zext16_toNat zp

theorem zeroPageIndexed_toNat (zp index : Byte) :
    (zeroPageIndexed zp index).toNat = (zp.toNat + index.toNat) % 256 := by
  rw [zeroPageIndexed, zext16_toNat, BitVec.toNat_add]

/-- The CPU's own read of a cell is the checked `read` of the memory contract, which answers (R31). -/
theorem State.read_word (s : State) (a : Word) : s.mem.read a.toNat = .ok (s.load a) := by
  have h := word_lt_memSize a
  simp only [Memory.read]
  rw [if_pos ⟨by omega, by omega⟩]
  rfl

/-- Likewise the CPU's own write (R31). -/
theorem State.write_word (s : State) (a : Word) (v : Byte) : s.mem.write a.toNat v = .ok (s.store a v).mem := by
  have h := word_lt_memSize a
  simp only [Memory.write]
  rw [if_pos ⟨by omega, by omega⟩]
  rfl

/-- A load after a store to the same address. -/
@[simp] theorem State.load_store_same (s : State) (a : Word) (v : Byte) : (s.store a v).load a = v :=
  Memory.get_set_same _ _ _

/-- A load after a store to another address. -/
theorem State.load_store_ne (s : State) {a b : Word} (v : Byte) (h : b ≠ a) : (s.store a v).load b = s.load b :=
  Memory.get_set_ne _ _ fun e => h (BitVec.eq_of_toNat_eq e)

end Sys2Proof.Machine
end

