-- ==== Sys2Proof/Laws/Meanings.lean ====
section
/-! SUPPORT. What the shared operations of the two families do, and each meaning as one equation. -/
namespace Sys2Proof.Machine

/-- A load of a literal (R69). -/
theorem loadAccumulator_literal (v : Byte) (r : Run) : loadAccumulator (.literal v) r =
    { r with st := (r.st.setA v).setFlags (loadFlags v r.st.flags) } := rfl

/-- A load from an address (R70, R71): one more byte moved. -/
theorem loadAccumulator_address (ea : Word) (r : Run) : loadAccumulator (.address ea) r =
    { st := (r.st.setA (r.st.load ea)).setFlags (loadFlags (r.st.load ea) r.st.flags), budget := r.budget - 1,
      trace := r.trace ++ [.read ea (r.st.load ea)] } := rfl

/-- Both pushes and the jump of `JSR` (R73). -/
theorem callSubroutine_eq (t : Word) (r : Run) : callSubroutine t r =
    { st := ((((r.st.store (stackSlot r.st.sp) (hi8 (r.st.pc - 1))).setSp (r.st.sp - 1)).store
        (stackSlot (r.st.sp - 1)) (lo8 (r.st.pc - 1))).setSp (r.st.sp - 1 - 1)).setPc t,
      budget := r.budget - 1 - 1,
      trace := r.trace ++ [.write (stackSlot r.st.sp) (hi8 (r.st.pc - 1))]
        ++ [.write (stackSlot (r.st.sp - 1)) (lo8 (r.st.pc - 1))] } := rfl

/-- Bit 7 of a byte is set iff the byte is at least 0x80 (R68's table). -/
theorem getLsbD_seven (a : Byte) : a.getLsbD 7 = decide (0x80 ≤ a.toNat) := by
  have h := BitVec.msb_eq_decide a
  rw [BitVec.msb_eq_getLsbD_last] at h
  simpa using h

/-- The flags after a load, as the table of R68 gives them. -/
theorem loadFlags_eq (a : Byte) (f : Flags) :
    loadFlags a f = { f with z := decide (a = 0), n := decide (0x80 ≤ a.toNat) } := by
  simp only [loadFlags, getLsbD_seven]
  rfl

variable (s : State)

theorem exec_ldaImm (v : Byte) : exec (.ldaImm v) s =
    .next { s with a := v, flags := loadFlags v s.flags, pc := s.pc + 2 } := rfl

theorem exec_ldaZp (zp : Byte) : exec (.ldaZp zp) s =
    .next { s with a := s.load (zeroPageAddr zp), flags := loadFlags (s.load (zeroPageAddr zp)) s.flags,
                   pc := s.pc + 2 } := rfl

theorem exec_ldaZpX (zp : Byte) : exec (.ldaZpX zp) s =
    .next { s with a := s.load (zeroPageIndexed zp s.x), flags := loadFlags (s.load (zeroPageIndexed zp s.x)) s.flags,
                   pc := s.pc + 2 } := rfl

theorem exec_jsr (t : Word) : exec (.jsr t) s =
    .next { s with pc := t, sp := s.sp - 1 - 1,
                   mem := (s.mem.set (stackSlot s.sp).toNat (hi8 (s.pc + 3 - 1))).set (stackSlot (s.sp - 1)).toNat
                     (lo8 (s.pc + 3 - 1)) } := rfl

theorem exec_illegal (opcode : Byte) : exec (.illegal opcode) s =
    .next { s with pc := s.pc + 1, fault := some (.illegalOpcode opcode s.pc) } := rfl

end Sys2Proof.Machine
end

