-- ==== Sys2Proof/Laws/Cycle.lean ====
section
/-! SUPPORT. What one step can do, said once: the case lemma of `step`, and `stepRun` arm by arm. -/
namespace Sys2Proof.Machine

theorem step_of_faulted {s : State} {f : Fault} (h : s.fault = some f) : step s = .fault f := by
  simp only [step, stepState, h]

theorem step_of_ready {s : State} (h : s.fault = none) : step s = exec (fetchInstr s) s := by
  simp only [step, stepState, h]

/-- The instruction at `PC`, by the opcode byte there. -/
theorem fetchInstr_cases (s : State) :
    (s.load s.pc = 0x20 ∧ fetchInstr s = .jsr (wordOf (s.load (s.pc + 2)) (s.load (s.pc + 1))))
    ∨ (s.load s.pc = 0xA5 ∧ fetchInstr s = .ldaZp (s.load (s.pc + 1)))
    ∨ (s.load s.pc = 0xA9 ∧ fetchInstr s = .ldaImm (s.load (s.pc + 1)))
    ∨ (s.load s.pc = 0xB5 ∧ fetchInstr s = .ldaZpX (s.load (s.pc + 1)))
    ∨ (s.load s.pc ∉ legalOpcodes ∧ fetchInstr s = .illegal (s.load s.pc)) := by
  rcases opcode_cases (s.load s.pc) with h | h | h | h | h
  · exact .inl ⟨h, by rw [fetchInstr, h]; rfl⟩
  · exact .inr (.inl ⟨h, by rw [fetchInstr, h]; rfl⟩)
  · exact .inr (.inr (.inl ⟨h, by rw [fetchInstr, h]; rfl⟩))
  · exact .inr (.inr (.inr (.inl ⟨h, by rw [fetchInstr, h]; rfl⟩)))
  · exact .inr (.inr (.inr (.inr ⟨h, decodeBytes_of_not_legal h _ _⟩)))

/-- A step that answers a next state starts from an unfaulted machine and is `exec` of the instruction at `PC`. -/
theorem step_next {s t : State} (h : step s = .next t) : s.fault = none ∧ exec (fetchInstr s) s = .next t := by
  cases hf : s.fault with
  | none => exact ⟨rfl, by rw [← step_of_ready hf, h]⟩
  | some f => rw [step_of_faulted hf] at h; cases h

theorem stepRun_of_faulted {r : Run} {f : Fault} (h : r.st.fault = some f) : stepRun r = r := by
  simp only [stepRun, stepRunWith, h]

/-- `Step()` without extra cycles: fetch the opcode byte, dispatch. -/
theorem stepRun_of_ready {r : Run} (h : r.st.fault = none) :
    stepRun r = dispatchRun (r.st.load r.st.pc) r.st.pc (fetchByte r).2 := by
  simp only [stepRun, stepRunWith, h, fetchByte_fst, Config.extraCycles]
  simp only [Nat.cast_zero, Int.sub_zero, ite_self]

variable (at_ : Word) (r : Run)

theorem dispatchRun_jsr : dispatchRun 0x20 at_ r = callSubroutine (fetchWord r).1 (fetchWord r).2 := rfl
theorem dispatchRun_ldaZp : dispatchRun 0xA5 at_ r =
    loadAccumulator (.address (zeroPageAddr (fetchByte r).1)) (fetchByte r).2 := rfl
theorem dispatchRun_ldaImm : dispatchRun 0xA9 at_ r = loadAccumulator (.literal (fetchByte r).1) (fetchByte r).2 := rfl
theorem dispatchRun_ldaZpX : dispatchRun 0xB5 at_ r =
    loadAccumulator (.address (zeroPageIndexed (fetchByte r).1 r.st.x)) (fetchByte r).2 := rfl
theorem dispatchRun_illegal {op : Byte} {at_ : Word} {r : Run} (h : op ∉ legalOpcodes) :
    dispatchRun op at_ r = { r with st := r.st.takeFault (.illegalOpcode op at_) } := by
  simp only [dispatchRun, opcodeRow_of_not_legal h]
  rfl

end Sys2Proof.Machine
end

