-- ==== Sys2Proof/Laws/HostAccess.lean ====
section
/-! SUPPORT. What the host reads, and that a host write of one thing leaves `PC`, the flags or memory alone. -/
namespace Sys2Proof.Machine

variable (s : State)

@[simp] theorem hostReadPc_eq : hostReadPc s = s.pc := rfl

@[simp] theorem hostSetRegister_pc (r : Register) (v : Byte) : (hostSetRegister s r v).pc = s.pc := by cases r <;> rfl
@[simp] theorem hostSetRegister_flags (r : Register) (v : Byte) : (hostSetRegister s r v).flags = s.flags := by
  cases r <;> rfl
@[simp] theorem hostSetRegister_mem (r : Register) (v : Byte) : (hostSetRegister s r v).mem = s.mem := by cases r <;> rfl
@[simp] theorem hostSetRegister_fault (r : Register) (v : Byte) : (hostSetRegister s r v).fault = s.fault := by
  cases r <;> rfl

end Sys2Proof.Machine
end

