-- ==== Sys2Proof/Laws/PerInstr.lean ====
section
/-! SUPPORT. Statements per instruction. OpcodeFixesLength: the opcode byte alone decides an instruction's length (R48). -/
namespace Sys2Proof.Laws.OpcodeFixesLength

/-- The bytes of `i` are as many as the row of its first byte has. -/
def Statement (i : Instr) : Prop :=
  i.wellFormed = true → (encode i).length = rowLength (opcodeRow ((encode i).headD 0))

theorem jsr (abs16 : Word) : Statement (.jsr abs16) := fun _ => rfl
theorem ldaZp (zp8 : Byte) : Statement (.ldaZp zp8) := fun _ => rfl
theorem ldaImm (imm8 : Byte) : Statement (.ldaImm imm8) := fun _ => rfl
theorem ldaZpX (zp8 : Byte) : Statement (.ldaZpX zp8) := fun _ => rfl
theorem illegal (opcode : Byte) : Statement (.illegal opcode) := by
  intro h
  have e : opcodeRow opcode = .illegal := opcodeRow_of_not_legal (wellFormed_illegal.mp h)
  simp [encode, e, rowLength, operandBytes]

end Sys2Proof.Laws.OpcodeFixesLength
end

