-- ==== Sys2Proof/Laws/Run.lean ====
section
/-! SUPPORT. The equations of the `Execute` loop and of the host's `Core.run`. -/
namespace Sys2Proof.Machine

theorem executeLoop_zero (extra : Byte → Nat) (r : Run) : executeLoop extra 0 r = r := rfl

/-- One turn of the loop (R77). -/
theorem executeLoop_succ (extra : Byte → Nat) (k : Nat) (r : Run) : executeLoop extra (k + 1) r =
    if 0 < r.budget then
      (if (stepRunWith extra r).st.fault.isSome then stepRunWith extra r else executeLoop extra k (stepRunWith extra r))
    else r := rfl

theorem execute_of_faulted {s : State} {f : Fault} (h : s.fault = some f) (n : Int) :
    execute n s = { outcome := .refused f, final := Run.start s n } := by
  simp only [execute, executeWith, h]

/-- What `Execute` of an unfaulted machine ends with is what its loop ends with. -/
theorem execute_final {s : State} (h : s.fault = none) (n : Int) :
    (execute n s).final = executeLoop Config.extraCycles n.toNat (Run.start s n) := by
  simp only [execute, executeWith, h]
  split <;> rfl

/-- `core.run` after a step that answers a next state. -/
theorem run_succ_of_next {s t : State} (h : step s = .next t) (k : Nat) :
    Host.Core.run Sys2Proof.core (k + 1) s = Host.Core.run Sys2Proof.core k t := by
  have general : ∀ (M : Host.Core) {u v : M.State}, M.step u = .next v → M.run (k + 1) u = M.run k v := by
    intro M u v e
    rw [Host.Core.run, e]
  exact general Sys2Proof.core h

/-- Each cost is from 1 to 5 cycles (R81). -/
theorem cycleCost_bounds (opcode : Byte) : 1 ≤ cycleCost opcode ∧ cycleCost opcode ≤ 5 := by
  unfold cycleCost
  split_ifs <;> omega

end Sys2Proof.Machine
end

