-- ==== Sys2Proof/Tests/Slice0.lean ====
section
/-!
SUPPORT. Our own tests: words written out from the spec's encodings, vectors of 95_test_vectors.md, the well-formedness smoke
test, and for every statement with hypotheses a concrete state that meets them all.
-/
namespace Sys2Proof.Tests

open Sys2Proof.Machine

/-- The state after `Reset` with `PC` and some cells set by the host. -/
def placed (pc : Word) (cells : List (Word × Byte)) : State :=
  cells.foldl (fun s c => s.store c.1 c.2) { State.reset with pc := pc }

/-- A field of the state that one step answers. -/
def after {α : Type} (s : State) (field : State → α) : Option α :=
  match step s with
  | .next t => some (field t)
  | .fault _ => none
  | .refused _ => none

/-- The words of a decoded instruction. -/
def decoded (bytes : List Byte) : Option Instr :=
  match decode bytes with
  | .ok (i, _) => some i
  | .error _ => none

/-! ### Well-formedness -/

theorem test_illformed_illegal_jsr : (Instr.illegal 0x20).wellFormed = false := by decide
theorem test_illformed_illegal_ldaZp : (Instr.illegal 0xA5).wellFormed = false := by decide
theorem test_illformed_illegal_ldaImm : (Instr.illegal 0xA9).wellFormed = false := by decide
theorem test_illformed_illegal_ldaZpX : (Instr.illegal 0xB5).wellFormed = false := by decide
theorem test_wellformed_illegal : (Instr.illegal 0xEA).wellFormed = true := by decide

/-! ### Decoding: bits of 95_test_vectors.md S10, in memory order -/

theorem test_decode_ldaImm : decoded [0b10101001, 0b01000010] = some (.ldaImm 0x42) := by decide
theorem test_decode_ldaZp : decoded [0b10100101, 0b00010000] = some (.ldaZp 0x10) := by decide
theorem test_decode_ldaZpX : decoded [0b10110101, 0b00010000] = some (.ldaZpX 0x10) := by decide
theorem test_decode_jsr : decoded [0b00100000, 0b00110100, 0b00010010] = some (.jsr 0x1234) := by decide
/-- 0x00 is illegal and one byte long (R50, R48). -/
theorem test_decode_illegal : decoded [0b00000000, 0x42] = some (.illegal 0x00) := by decide
theorem test_decode_truncated : decoded [0x20, 0x34] = none := by decide
theorem test_table_word_jsr : decodeTableWord 24 0x123420 = some (.jsr 0x1234) := by decide
theorem test_table_word_illegal : decodeTableWord 8 0xFF = some (.illegal 0xFF) := by decide

/-- A table word placed after `Reset` is what the next step runs: the `JSR` of S6. -/
theorem test_withFetchWord : after (State.reset.withFetchWord 24 0x123420) (fun t => (t.pc, t.sp, t.load 0x01FF, t.load 0x01FE))
    = some (0x1234, 0xFD, 0xFF, 0xFE) := by decide

/-! ### One step each -/

/-- S9: after `Reset`, `A9 42` at 0xFFFC. -/
theorem test_ldaImm : after (placed 0xFFFC [(0xFFFC, 0xA9), (0xFFFD, 0x42)])
    (fun t => (t.a, t.flags.z, t.flags.n, t.pc)) = some (0x42, false, false, 0xFFFE) := by decide
/-- L5: the operand of an opcode at 0xFFFF stands at 0x0000. -/
theorem test_ldaImm_wraps : after (placed 0xFFFF [(0xFFFF, 0xA9), (0x0000, 0x33)]) (fun t => (t.a, t.pc))
    = some (0x33, 0x0001) := by decide
/-- L7: zero page 0xFF is address 0x00FF, not 0x01FF. -/
theorem test_ldaZp : after (placed 0x0200 [(0x0200, 0xA5), (0x0201, 0xFF), (0x00FF, 0x9C), (0x01FF, 0x01)])
    (fun t => (t.a, t.flags.z, t.flags.n)) = some (0x9C, false, true) := by decide
/-- L8: the load reads its own opcode byte. -/
theorem test_ldaZp_own_byte : after (placed 0x0010 [(0x0010, 0xA5), (0x0011, 0x10)]) (fun t => (t.a, t.pc))
    = some (0xA5, 0x0012) := by decide
/-- S5: `X = 0xFF` and operand 0x01 read 0x0000, not 0x0100. -/
theorem test_ldaZpX_wraps : after { placed 0x0300 [(0x0300, 0xB5), (0x0301, 0x01), (0x0000, 0x37), (0x0100, 0x99)] with x := 0xFF }
    (fun t => (t.a, t.pc, t.x)) = some (0x37, 0x0302, 0xFF) := by decide
/-- L12: the index sum 0x17F sets no flag. -/
theorem test_ldaZpX_no_carry : after { placed 0x0200 [(0x0200, 0xB5), (0x0201, 0x80), (0x007F, 0x01)] with x := 0xFF }
    (fun t => (t.a, t.flags.c, t.flags.v)) = some (0x01, false, false) := by decide
/-- J2: at `SP = 0x00` the high byte goes to 0x0100 and the low byte to 0x01FF. -/
theorem test_jsr_sp_wraps : after { placed 0x0400 [(0x0400, 0x20), (0x0401, 0x00), (0x0402, 0x05)] with sp := 0x00 }
    (fun t => (t.pc, t.sp, t.load 0x0100, t.load 0x01FF)) = some (0x0500, 0xFE, 0x04, 0x02) := by decide
/-- J7: a `JSR` in its own stack slots jumps to the target it fetched. -/
theorem test_jsr_own_slots : after (placed 0x01FD [(0x01FD, 0x20), (0x01FE, 0x00), (0x01FF, 0x03)])
    (fun t => (t.pc, t.sp, t.load 0x01FF, t.load 0x01FE)) = some (0x0300, 0xFD, 0x01, 0xFF) := by decide
/-- E6: 0xFF at 0x0200 raises `IllegalOpcode(0xFF, 0x0200)` with `PC = 0x0201`. -/
theorem test_illegal : after (placed 0x0200 [(0x0200, 0xFF)]) (fun t => (t.fault, t.pc))
    = some (some (.illegalOpcode 0xFF 0x0200), 0x0201) := by decide
/-- Z3: the reset vector is not followed. -/
theorem test_illegal_vector : after (placed 0xFFFC [(0xFFFD, 0x02)]) (fun t => t.fault)
    = some (some (.illegalOpcode 0x00 0xFFFC)) := by decide

/-- R25, R115: the host sets `PC` and reads it back; after `Reset` it reads 0xFFFC (R23). -/
theorem test_host_reads_pc : hostReadPc State.reset = 0xFFFC
    ∧ (hostCall (.setPc 0x0300) State.reset).toOption.map hostReadPc = some 0x0300 := by decide

/-! ### Cycle accounting and the memory contract -/

/-- S7 b: a budget of 1 still runs the whole instruction. -/
theorem test_execute_overdraws : ((execute 1 (placed 0xFFFC [(0xFFFC, 0xA9), (0xFFFD, 0x42)])).outcome,
    (execute 1 (placed 0xFFFC [(0xFFFC, 0xA9), (0xFFFD, 0x42)])).final.budget) = (.consumed 2, -1) := by decide
/-- S8: `Execute(10)` over 0xFF faults with 9 cycles left. -/
theorem test_execute_faults : ((execute 10 (placed 0xFFFC [(0xFFFC, 0xFF)])).outcome,
    (execute 10 (placed 0xFFFC [(0xFFFC, 0xFF)])).final.budget) = (.faulted (.illegalOpcode 0xFF 0xFFFC), 9) := by decide
/-- M3: `write_word(0x1000, 0xBEEF)` with budget 10. -/
theorem test_write_word : Memory.writeWord [] 0x1000 0xBEEF 10 = .ok ([(0x1000, 0xEF), (0x1001, 0xBE)], 8) := by rfl
/-- M5: a word write at 0xFFFF fails with `OutOfRange(65536)`. -/
theorem test_write_word_top : Memory.writeWord [] 0xFFFF 0x1234 10 = .error (.outOfRange 65536) := by rfl
/-- S2: `read(-1)` fails. -/
theorem test_read_below : Memory.read [] (-1) = .error (.outOfRange (-1)) := by rfl

/-! ### Witnesses: a concrete state and operands for the hypotheses of every statement that has some -/

/-- `A9 42` at 0x0200. -/
def immState : State := placed 0x0200 [(0x0200, 0xA9), (0x0201, 0x42)]
/-- `A5 FF` at 0x0200. -/
def zpState : State := placed 0x0200 [(0x0200, 0xA5), (0x0201, 0xFF), (0x00FF, 0x9C)]
/-- `B5 01` at 0x0200 with `X = 0xFF`. -/
def zpXState : State := { placed 0x0200 [(0x0200, 0xB5), (0x0201, 0x01), (0x0000, 0x37)] with x := 0xFF }
/-- P4: `20 FE 01` at 0x42A7. -/
def jsrState : State := placed 0x42A7 [(0x42A7, 0x20), (0x42A8, 0xFE), (0x42A9, 0x01)]
/-- 0xFF at 0x0200. -/
def illegalState : State := placed 0x0200 [(0x0200, 0xFF)]
/-- A machine that has faulted on it. -/
def faultedState : State := { illegalState with pc := 0x0201, fault := some (.illegalOpcode 0xFF 0x0200) }

theorem witness_FreshMachineFaultsAtOnce : (0 : Int) < 1 := by decide
theorem witness_MemoryContract_inRange_bottom : (0 : Int) ≤ 0 ∧ (0 : Int) < 65536 := by decide
theorem witness_MemoryContract_inRange_top : (0 : Int) ≤ 65535 ∧ (65535 : Int) < 65536 := by decide
theorem witness_MemoryContract_below : (-1 : Int) < 0 ∨ (65536 : Int) ≤ -1 := by decide
theorem witness_MemoryContract_above : (65536 : Int) < 0 ∨ (65536 : Int) ≤ 65536 := by decide
theorem witness_WriteWord_inRange_bottom : (0 : Int) ≤ 0 ∧ (0 : Int) < 65535 := by decide
theorem witness_WriteWord_inRange_top : (0 : Int) ≤ 65534 ∧ (65534 : Int) < 65535 := by decide
theorem witness_WriteWord_top : (65535 : Int) = 65535 ∧ ¬ ((65535 : Int) < 0 ∨ (65536 : Int) ≤ 65535) := by decide
theorem witness_WriteWord_outOfRange : (-1 : Int) < 0 ∨ (65536 : Int) ≤ -1 := by decide
theorem witness_LoadSetsZeroAndNegative : (∃ t, exec (.ldaImm 0x80) immState = .next t)
    ∧ (∃ t, exec (.ldaZp 0xFF) zpState = .next t) ∧ (∃ t, exec (.ldaZpX 0x01) zpXState = .next t)
    ∧ Flag.c ≠ .z ∧ Flag.c ≠ .n := ⟨⟨_, rfl⟩, ⟨_, rfl⟩, ⟨_, rfl⟩, by decide, by decide⟩
theorem witness_LdaImmediate : immState.fault = none ∧ immState.load immState.pc = 0xA9
    ∧ immState.load (immState.pc + 1) = 0x42 := by decide
theorem witness_LdaZeroPage : (0x00FF : Word).toNat = (0xFF : Byte).toNat ∧ zpState.fault = none
    ∧ zpState.load zpState.pc = 0xA5 ∧ zpState.load (zpState.pc + 1) = 0xFF := by decide
theorem witness_LdaZeroPageX : (0x0000 : Word).toNat = ((0x01 : Byte).toNat + zpXState.x.toNat) % 256
    ∧ zpXState.fault = none ∧ zpXState.load zpXState.pc = 0xB5 ∧ zpXState.load (zpXState.pc + 1) = 0x01 := by decide
theorem witness_ZeroIndexLoadsAsZeroPage : zpState.x = 0 := by decide
theorem witness_LoadsSeeOnlyZeroPage : zpState.x = jsrState.x ∧ (∀ a : Word, InZeroPage a → immState.load a = jsrState.load a)
    ∧ (∃ t, exec (.ldaZp 0x10) immState = .next t) ∧ ∃ t, exec (.ldaZp 0x10) jsrState = .next t := by
  refine ⟨by decide, fun a h => ?_, ⟨_, rfl⟩, ⟨_, rfl⟩⟩
  have k : ∀ m : Memory, (∀ c ∈ m, 0x100 ≤ c.1) → m.get a.toNat = Config.resetCell := fun m hm =>
    Memory.get_of_absent fun c hc e => absurd (hm c hc) (by have hz : a.toNat ≤ 0xFF := h; omega)
  exact (k immState.mem (by decide)).trans (k jsrState.mem (by decide)).symm
theorem witness_JsrFetchesTargetBeforePushing : jsrState.fault = none ∧ jsrState.load jsrState.pc = 0x20
    ∧ (0x01FE : Word).toNat = (jsrState.load (jsrState.pc + 2)).toNat * 256 + (jsrState.load (jsrState.pc + 1)).toNat := by
  decide
theorem witness_JsrPushEqualsWordWrite : jsrState.mem.wf ∧ jsrState.sp ≠ 0 := by decide
theorem witness_JsrPushEqualsWordWrite_wrap : ({ jsrState with sp := 0 } : State).mem.wf ∧ ({ jsrState with sp := 0 } : State).sp = 0 := by
  decide
theorem witness_PushedBytesAreFetchedNext : jsrState.fault = none ∧ jsrState.load jsrState.pc = 0x20 ∧ jsrState.sp ≠ 0
    ∧ wordOf (jsrState.load (jsrState.pc + 2)) (jsrState.load (jsrState.pc + 1)) = stackSlot (jsrState.sp - 1)
    ∧ lo8 (jsrState.pc + 2) = 0xA9 := by decide
theorem witness_IllegalOpcodeTakesFault : illegalState.fault = none ∧ illegalState.load illegalState.pc = 0xFF
    ∧ (0xFF : Byte) ∉ legalOpcodes := by decide
theorem witness_DecodeOfEncode : (Instr.illegal 0x00).wellFormed = true ∧ (Instr.jsr 0xFFFF).wellFormed = true := by decide
theorem witness_EncodeOfDecode : decode [0xA9, 0x42, 0x07] = .ok (.ldaImm 0x42, [0x07]) := by rfl
theorem witness_unfaulted_dispatch : (Run.start immState 5).st.fault = none := by decide
theorem witness_DispatchSelects_fault : (stepRun (Run.start illegalState 5)).st.fault ≠ none := by decide
theorem witness_StepRunsDecodedInstruction : jsrState.fault = none ∧
    decode [jsrState.load jsrState.pc, jsrState.load (jsrState.pc + 1), jsrState.load (jsrState.pc + 2)]
      = .ok (.jsr 0x01FE, []) := ⟨by decide, rfl⟩
theorem witness_StepAgreesWithByteByByteCycle : jsrState.fault = none := by decide
theorem witness_UnfaultedStepCompletes : illegalState.fault = none := by decide
theorem witness_FaultedMachineTakesNoStep : faultedState.fault = some (.illegalOpcode 0xFF 0x0200) := by decide
theorem witness_StepKeepsInvariant : zpState.Inv ∧ ∃ t, step zpState = .next t :=
  ⟨⟨by decide, by decide, fun f h => by cases h⟩, ⟨_, rfl⟩⟩
theorem witness_ExecuteKeepsInvariant_faulted : faultedState.Inv :=
  ⟨by decide, by decide, fun f h => by cases h; exact ⟨0xFF, 0x0200, by decide⟩⟩
theorem witness_StepFrame_load : ∃ t, step zpState = .next t ∧ zpState.load zpState.pc ≠ 0x20
    ∧ zpState.load zpState.pc ∈ legalOpcodes ∧ zpState.load zpState.pc ∈ [(0xA5 : Byte), 0xA9, 0xB5] :=
  ⟨_, rfl, by decide, by decide, by decide⟩
theorem witness_StepFrame_jsr : ∃ t, step jsrState = .next t ∧ jsrState.load jsrState.pc = 0x20
    ∧ jsrState.load jsrState.pc ∉ [(0xA5 : Byte), 0xA9, 0xB5] := ⟨_, rfl, by decide, by decide⟩
theorem witness_ProgramCounter_illegal : ∃ t, step illegalState = .next t ∧ illegalState.load illegalState.pc ∉ legalOpcodes :=
  ⟨_, rfl, by decide⟩
theorem witness_ExecuteWritesOnlyStackPage_below : ¬ InStackPage 0x00FF := by decide
theorem witness_ExecuteWritesOnlyStackPage_above : ¬ InStackPage 0x0200 := by decide
theorem witness_ExecuteUnrolls_none : immState.fault = none ∧ (0 : Int) ≤ 0 := by decide
theorem witness_ExecuteUnrolls_next : immState.fault = none ∧ (0 : Int) < 3
    ∧ (stepRun (Run.start immState 3)).st.fault = none
    ∧ (execute 1 (stepRun (Run.start immState 3)).st).outcome = .faulted (.illegalOpcode 0x00 0x0202) := by decide
theorem witness_ExecuteUnrolls_consumed : (stepRun (Run.start immState 2)).st.fault = none
    ∧ (execute 0 (stepRun (Run.start immState 2)).st).outcome = .consumed 0 := by decide
theorem witness_ExecuteUnrolls_fault : illegalState.fault = none
    ∧ (stepRun (Run.start illegalState 3)).st.fault = some (.illegalOpcode 0xFF 0x0200) := by decide
theorem witness_ExecuteEndsAtBudgetOrFault : immState.fault = none := by decide
theorem witness_ExecuteIsIteratedStep : immState.fault = none ∧ (execute 2 immState).final.st.fault = none := by decide
theorem witness_HostCalls_error : hostCall (.write 65536 0x01) immState = .error (.outOfRange 65536) := by rfl
theorem witness_HostCalls_ok : ∃ t, hostCall (.write 65535 0x01) immState = .ok t ∧ HostCall.write 65535 0x01 ≠ .reset
    ∧ immState.mem.wf := ⟨_, rfl, by decide, by decide⟩

end Sys2Proof.Tests
end

/-! ## Proofs: the memory contract over integer addresses (20_memory.md section 2) -/
section
namespace Sys2Proof.Machine

/-- R27's range with the size written out as the number it is. -/
theorem inRange_iff {a : Int} : InRange a ↔ 0 ≤ a ∧ a < 65536 := Iff.rfl

theorem not_inRange_iff {a : Int} : ¬ InRange a ↔ a < 0 ∨ 65536 ≤ a := by
  rw [inRange_iff]
  omega

/-- R30: the byte every cell holds after `initialize` is 0x00. -/
theorem Memory.read_zeroAll (m : Memory) {a : Int} (h : InRange a) : m.zeroAll.read a = .ok 0 :=
  Memory.read_inRange m.zeroAll h

theorem Memory.read_set_same (m : Memory) {a : Int} (v : Byte) (h : InRange a) : (m.set a.toNat v).read a = .ok v := by
  rw [Memory.read_inRange _ h, Memory.get_set_same]

/-- R28's frame, over every integer address: two different addresses in range name different cells, and outside the range
no cell is read. -/
theorem Memory.read_set_ne (m : Memory) {a b : Int} (v : Byte) (h : InRange a) (hne : b ≠ a) :
    (m.set a.toNat v).read b = m.read b := by
  by_cases hb : InRange b
  · have hcell : b.toNat ≠ a.toNat := by
      have ha := h.1
      have hb0 := hb.1
      omega
    rw [Memory.read_inRange _ hb, Memory.read_inRange _ hb, Memory.get_set_ne m v hcell]
  · rw [Memory.read_outOfRange _ hb, Memory.read_outOfRange _ hb]

/-- Settles O3, from the laws of one write (R28) and of the address range (R27); the frame is `Memory.read_set_ne`. -/
theorem memoryContract : Obligations.MemoryContract := by
  intro m
  refine ⟨fun a ha => ?inRange, fun a v ha => ?write, fun a v ha => ?outOfRange⟩
  case inRange =>
    have h : InRange a := inRange_iff.mpr ha
    exact ⟨Memory.read_inRange m h, Memory.read_zeroAll m h⟩
  case write =>
    have h : InRange a := inRange_iff.mpr ha
    exact ⟨m.set a.toNat v, Memory.write_inRange m v h, Memory.read_set_same m v h,
      fun b hne => Memory.read_set_ne m v h hne⟩
  case outOfRange =>
    have h : ¬ InRange a := not_inRange_iff.mpr ha
    exact ⟨Memory.read_outOfRange m h, Memory.write_outOfRange m v h⟩

end Sys2Proof.Machine
end

/-! ## Proofs: the dispatch of the opcode byte (30_encoding.md section 4, 43_instruction_cycle.md section 1) -/
section
namespace Sys2Proof.Machine

/-! ### No handler faults once dispatched (R76) -/

@[simp] theorem runLda_fault (mode : Mode) (r : Run) : (runLda mode r).st.fault = r.st.fault := by cases mode <;> rfl
@[simp] theorem runJsr_fault (r : Run) : (runJsr r).st.fault = r.st.fault := by
  simp [runJsr, callSubroutine_eq, fetchWord_snd]

theorem dispatchRun_fault_of_legal {op : Byte} (h : op ∈ legalOpcodes) (at_ : Word) (r : Run) :
    (dispatchRun op at_ r).st.fault = r.st.fault := by
  rcases opcode_cases op with rfl | rfl | rfl | rfl | hillegal
  · exact runJsr_fault r
  · exact runLda_fault .zeroPage r
  · exact runLda_fault .immediate r
  · exact runLda_fault .zeroPageX r
  · exact absurd h hillegal

theorem stepRun_fault_of_legal {r : Run} (hready : r.st.fault = none) (hlegal : r.st.load r.st.pc ∈ legalOpcodes) :
    (stepRun r).st.fault = none := by
  rw [stepRun_of_ready hready, dispatchRun_fault_of_legal hlegal]
  exact hready

/-! ### The state reached is a function of the state alone (R7): neither the budget nor the trace counts -/

theorem runLda_st (mode : Mode) (r : Run) : (runLda mode r).st = (runLda mode (Run.start r.st 0)).st := by
  cases mode <;> rfl

theorem runJsr_st (r : Run) : (runJsr r).st = (runJsr (Run.start r.st 0)).st := rfl

theorem dispatchRun_st (op : Byte) (at_ : Word) (r : Run) :
    (dispatchRun op at_ r).st = (dispatchRun op at_ (Run.start r.st 0)).st := by
  rcases opcode_cases op with rfl | rfl | rfl | rfl | hillegal
  · exact runJsr_st r
  · exact runLda_st .zeroPage r
  · exact runLda_st .immediate r
  · exact runLda_st .zeroPageX r
  · rw [dispatchRun_illegal hillegal, dispatchRun_illegal hillegal, Run.start_st]

theorem stepRun_st (r : Run) : (stepRun r).st = (stepRun (Run.start r.st 0)).st := by
  cases hf : r.st.fault with
  | none =>
    rw [stepRun_of_ready hf, stepRun_of_ready (r := Run.start r.st 0) hf, dispatchRun_st,
      dispatchRun_st _ _ (fetchByte (Run.start r.st 0)).2]
    rfl
  | some f => rw [stepRun_of_faulted hf, stepRun_of_faulted (r := Run.start r.st 0) hf, Run.start_st]

/-! ### The five arms (R51) -/

/-- The opcode map read off the whole byte, arm by arm; the tests exclude each other, so their order does not matter. -/
theorem dispatchRun_eq_ite (op : Byte) (at_ : Word) (r : Run) : dispatchRun op at_ r =
    if op = 0xA9 then runLda .immediate r
    else if op = 0xA5 then runLda .zeroPage r
    else if op = 0xB5 then runLda .zeroPageX r
    else if op = 0x20 then runJsr r
    else { r with st := r.st.takeFault (.illegalOpcode op at_) } := by
  rcases opcode_cases op with rfl | rfl | rfl | rfl | hillegal
  case inr.inr.inr.inr =>
    rw [dispatchRun_illegal hillegal]
    simp only [legalOpcodes, List.mem_cons, List.not_mem_nil, or_false, not_or] at hillegal
    obtain ⟨hjsr, hzp, himm, hzpX⟩ := hillegal
    rw [if_neg himm, if_neg hzp, if_neg hzpX, if_neg hjsr]
  all_goals rfl

/-- Settles O25: the arm is `dispatchRun_eq_ite` after the opcode fetch, a legal byte's handler leaves the fault status
alone, and the state reached is that of the same step under any other budget. -/
theorem dispatchSelectsExactlyOneArm : Obligations.DispatchSelectsExactlyOneArm := by
  intro r hready
  refine ⟨?arm, ?fault, ?budget⟩
  case arm =>
    rw [stepRun_of_ready hready]
    exact dispatchRun_eq_ite _ _ _
  case fault => exact fun hfault hlegal => hfault (stepRun_fault_of_legal hready hlegal)
  case budget => exact fun b => (stepRun_st { r with budget := b }).trans (stepRun_st r).symm

end Sys2Proof.Machine
end

/-! ## Proofs: the checked read and the one-byte addressing modes (40_fetch_and_addressing.md) -/
section
namespace Sys2Proof.Machine

/-- Settles O6: a 16-bit address is always in range (R31), so the checked read answers its cell, and the rest is the one
charge of `ReadByte` (R59). -/
theorem readByteReadsResolvedAddress : Obligations.ReadByteReadsResolvedAddress := by
  intro addr r
  rw [readByte_fst, readByte_snd]
  exact ⟨State.read_word r.st addr, Run.charge_st r _, Run.charge_budget r _, Run.charge_trace r _⟩

/-! ### What a mode of one operand byte resolves to, and what the fetch of that byte leaves -/

/-- R61. -/
theorem resolve_immediate (r : Run) : resolve .immediate r = (.literal (fetchByte r).1, (fetchByte r).2) := rfl

/-- R62. -/
theorem resolve_zeroPage (r : Run) :
    resolve .zeroPage r = (.address (zeroPageAddr (fetchByte r).1), (fetchByte r).2) := rfl

/-- R63: the index register is the one the fetch found. -/
theorem resolve_zeroPageX (r : Run) :
    resolve .zeroPageX r = (.address (zeroPageIndexed (fetchByte r).1 r.st.x), (fetchByte r).2) := rfl

/-- `FetchByte` writes no state but `PC` (R57). -/
theorem fetchByte_restore_pc (r : Run) : { (fetchByte r).2.st with pc := r.st.pc } = r.st := rfl

theorem fetchByte_budget (r : Run) : (fetchByte r).2.budget = r.budget - 1 := rfl

theorem operandValue_literal (v : Byte) (r : Run) : operandValue (.literal v) r = (v, r) := rfl

theorem operandValue_address (ea : Word) (r : Run) : operandValue (.address ea) r = readByte ea r := rfl

/-- Settles O7: each mode is one `FetchByte`, and the zero page addresses have the numbers of `zeroPageAddr_toNat` and, with
the index sum modulo 256, of `zeroPageIndexed_toNat`. -/
theorem modesResolveOneOperandByte : Obligations.ModesResolveOneOperandByte := by
  intro r
  refine ⟨resolve_immediate r, ⟨_, resolve_zeroPage r, ?zeroPage⟩, ⟨_, resolve_zeroPageX r, ?zeroPageX⟩,
    fetchByte_restore_pc r, fetchByte_budget r, fun v => operandValue_literal v r, fun ea => operandValue_address ea r⟩
  case zeroPage => exact zeroPageAddr_toNat _
  case zeroPageX => exact zeroPageIndexed_toNat _ _

end Sys2Proof.Machine
end

/-! ## Proofs: the load accumulator family (41_load_accumulator.md) -/
section
namespace Sys2Proof.Machine

/-! ### The flag stage (R68) -/

theorem State.ldaSetStatus_z_iff (s : State) : s.ldaSetStatus.flags.z = true ↔ s.a = 0 := by
  rw [State.ldaSetStatus_flags, loadFlags_eq, decide_eq_true_iff]

theorem State.ldaSetStatus_n_iff (s : State) : s.ldaSetStatus.flags.n = true ↔ 0x80 ≤ s.a.toNat := by
  rw [State.ldaSetStatus_flags, loadFlags_eq, decide_eq_true_iff]

/-- Zero lies below 0x80, so no byte sets both flags. -/
theorem State.ldaSetStatus_flagsConsistent (s : State) : s.ldaSetStatus.FlagsConsistent := by
  rintro ⟨hz, hn⟩
  rw [State.ldaSetStatus_z_iff] at hz
  rw [State.ldaSetStatus_n_iff, hz] at hn
  exact absurd hn (by decide)

theorem State.hostReadFlag_ldaSetStatus (s : State) {f : Flag} (hz : f ≠ .z) (hn : f ≠ .n) :
    hostReadFlag s.ldaSetStatus f = hostReadFlag s f := by
  cases f with
  | z => exact absurd rfl hz
  | n => exact absurd rfl hn
  | c | i | d | b | v => rfl

theorem State.ldaSetStatus_restore_flags (s : State) : { s.ldaSetStatus with flags := s.flags } = s := rfl

/-! ### The state a load leaves, and that each of the three meanings answers it (R69 to R71) -/

/-- `loadedState` in the named updates that the equations of the operations speak in. -/
theorem setA_setFlags_advancePc (s : State) (v : Byte) :
    ((s.advancePc 2).setA v).setFlags (loadFlags v s.flags) = loadedState s v := by
  rw [loadFlags_eq]
  rfl

/-- The flags of a loaded state are already those of its `A`. -/
theorem ldaSetStatus_loadedState (s : State) (v : Byte) : (loadedState s v).ldaSetStatus = loadedState s v := by
  rw [← setA_setFlags_advancePc]
  rfl

theorem exec_ldaImm_loaded (s : State) (v : Byte) : exec (.ldaImm v) s = .next (loadedState s v) := by
  rw [exec_ldaImm, loadFlags_eq]
  rfl

theorem exec_ldaZp_loaded (s : State) (zp : Byte) :
    exec (.ldaZp zp) s = .next (loadedState s (s.load (zeroPageAddr zp))) := by
  rw [exec_ldaZp, loadFlags_eq]
  rfl

theorem exec_ldaZpX_loaded (s : State) (zp : Byte) :
    exec (.ldaZpX zp) s = .next (loadedState s (s.load (zeroPageIndexed zp s.x))) := by
  rw [exec_ldaZpX, loadFlags_eq]
  rfl

/-- Whatever a load loaded, running the flag stage again changes nothing. -/
theorem ldaSetStatus_of_exec_load {i : Instr} {s t : State} {v : Byte} (hi : exec i s = .next (loadedState s v))
    (ht : exec i s = .next t) : t.ldaSetStatus = t := by
  rw [hi] at ht
  cases ht
  exact ldaSetStatus_loadedState s v

/-- Settles O9: the flag stage by its two `↔` lemmas and its frame, and each of the three loads answers a `loadedState`,
which the flag stage leaves as it is. -/
theorem loadSetsZeroAndNegative : Obligations.LoadSetsZeroAndNegative := by
  intro s
  refine ⟨s.ldaSetStatus_z_iff, s.ldaSetStatus_n_iff, s.ldaSetStatus_flagsConsistent,
    fun f hz hn => s.hostReadFlag_ldaSetStatus hz hn, s.ldaSetStatus_restore_flags, fun v t hload => ?afterLoad⟩
  case afterLoad =>
    rcases hload with himm | hzp | hzpX
    · exact ldaSetStatus_of_exec_load (exec_ldaImm_loaded s v) himm
    · exact ldaSetStatus_of_exec_load (exec_ldaZp_loaded s v) hzp
    · exact ldaSetStatus_of_exec_load (exec_ldaZpX_loaded s v) hzpX

/-! ### A load met as bytes at `PC`: by `step`, and byte by byte under a budget (R76) -/

theorem step_of_ldaImm {s : State} (hready : s.fault = none) (hop : s.load s.pc = 0xA9) :
    step s = exec (.ldaImm (s.load (s.pc + 1))) s := by
  rw [step_of_ready hready, fetchInstr, hop, decodeBytes_ldaImm]

theorem step_of_ldaZp {s : State} (hready : s.fault = none) (hop : s.load s.pc = 0xA5) :
    step s = exec (.ldaZp (s.load (s.pc + 1))) s := by
  rw [step_of_ready hready, fetchInstr, hop, decodeBytes_ldaZp]

/-- The run after the opcode byte and one operand byte: `PC` past both, two cycles, two reads. -/
theorem fetchByte_fetchByte_start (s : State) (n : Int) : fetchByte (fetchByte (Run.start s n)).2 =
    (s.load (s.pc + 1), { st := s.advancePc 2, budget := n - 2,
                          trace := [.read s.pc (s.load s.pc), .read (s.pc + 1) (s.load (s.pc + 1))] }) := by
  have hpc : (s.advancePc 1).advancePc 1 = s.advancePc 2 := State.advancePc_advancePc s 1 1
  have hbudget : n - 1 - 1 = n - 2 := by omega
  rw [← hpc, ← hbudget]
  rfl

theorem stepRun_ldaImm {s : State} (hready : s.fault = none) (hop : s.load s.pc = 0xA9) (n : Int) :
    stepRun (Run.start s n) =
      { st := loadedState s (s.load (s.pc + 1)), budget := n - 2,
        trace := [.read s.pc 0xA9, .read (s.pc + 1) (s.load (s.pc + 1))] } := by
  rw [stepRun_of_ready hready, Run.start_st, hop, dispatchRun_ldaImm, fetchByte_fetchByte_start,
    loadAccumulator_literal, hop, ← setA_setFlags_advancePc]
  rfl

theorem stepRun_ldaZp {s : State} (hready : s.fault = none) (hop : s.load s.pc = 0xA5) {ea : Word}
    (hea : zeroPageAddr (s.load (s.pc + 1)) = ea) (n : Int) :
    stepRun (Run.start s n) =
      { st := loadedState s (s.load ea), budget := n - 3,
        trace := [.read s.pc 0xA5, .read (s.pc + 1) (s.load (s.pc + 1)), .read ea (s.load ea)] } := by
  have hbudget : n - 2 - 1 = n - 3 := by omega
  rw [stepRun_of_ready hready, Run.start_st, hop, dispatchRun_ldaZp, fetchByte_fetchByte_start,
    loadAccumulator_address, hop, hea, ← setA_setFlags_advancePc, ← hbudget]
  rfl

/-- Settles O11: `exec` answers the `loadedState` of the literal, and both `step` and `Step()` take the literal from the
byte after the opcode. -/
theorem ldaImmediateLoadsOperand : Obligations.LdaImmediateLoadsOperand := by
  intro s imm8
  refine ⟨exec_ldaImm_loaded s imm8, fun hready hop hoperand => ?bytes⟩
  subst hoperand
  exact ⟨(step_of_ldaImm hready hop).trans (exec_ldaImm_loaded s _), fun n => stepRun_ldaImm hready hop n⟩

/-- The number of a zero page address fixes it (R62). -/
theorem zeroPageAddr_eq_of_toNat {zp : Byte} {ea : Word} (h : ea.toNat = zp.toNat) : zeroPageAddr zp = ea :=
  BitVec.eq_of_toNat_eq ((zeroPageAddr_toNat zp).trans h.symm)

/-- Settles O12: the address is `zeroPageAddr zp8` by its number, and at the step the operand byte is the one after the
opcode. -/
theorem ldaZeroPageLoadsCell : Obligations.LdaZeroPageLoadsCell := by
  intro s zp8 ea hnum
  have hea : zeroPageAddr zp8 = ea := zeroPageAddr_eq_of_toNat hnum
  have hexec : exec (.ldaZp zp8) s = .next (loadedState s (s.load ea)) := hea ▸ exec_ldaZp_loaded s zp8
  refine ⟨hexec, fun hready hop hoperand => ?bytes⟩
  subst hoperand
  exact ⟨(step_of_ldaZp hready hop).trans hexec, fun n => stepRun_ldaZp hready hop hea n⟩

end Sys2Proof.Machine
end

/-! ## Proofs: the decoder and the encoder (30_encoding.md) -/
section
namespace Sys2Proof

/-! ### What the decoder answers: by the bytes after the opcode byte (R48), and row by row -/

/-- Too few bytes after the opcode byte is the only failure of a non-empty list. -/
theorem decode_cons_of_short {op : Byte} {rest : List Byte} (h : rest.length < operandBytes (opcodeRow op)) :
    decode (op :: rest) = .error (.truncated op) := if_pos h

theorem decode_cons_of_enough {op : Byte} {rest : List Byte} (h : ¬ rest.length < operandBytes (opcodeRow op)) :
    decode (op :: rest) = .ok (decodeBytes op (rest.getD 0 0) (rest.getD 1 0),
      rest.drop (operandBytes (opcodeRow op))) := if_neg h

theorem decode_jsr (lo hi : Byte) (rest : List Byte) :
    decode (0x20 :: lo :: hi :: rest) = .ok (.jsr (wordOf hi lo), rest) :=
  decode_cons_of_enough (show ¬ rest.length + 2 < 2 by omega)

theorem decode_ldaZp (zp8 : Byte) (rest : List Byte) : decode (0xA5 :: zp8 :: rest) = .ok (.ldaZp zp8, rest) :=
  decode_cons_of_enough (show ¬ rest.length + 1 < 1 by omega)

theorem decode_ldaImm (imm8 : Byte) (rest : List Byte) : decode (0xA9 :: imm8 :: rest) = .ok (.ldaImm imm8, rest) :=
  decode_cons_of_enough (show ¬ rest.length + 1 < 1 by omega)

theorem decode_ldaZpX (zp8 : Byte) (rest : List Byte) : decode (0xB5 :: zp8 :: rest) = .ok (.ldaZpX zp8, rest) :=
  decode_cons_of_enough (show ¬ rest.length + 1 < 1 by omega)

theorem decode_illegal {op : Byte} (h : op ∉ legalOpcodes) (rest : List Byte) :
    decode (op :: rest) = .ok (.illegal op, rest) := by
  have hrow : operandBytes (opcodeRow op) = 0 := by rw [opcodeRow_of_not_legal h]; rfl
  rw [decode_cons_of_enough (by omega), decodeBytes_of_not_legal h, hrow, List.drop_zero]

/-- Settles O21: the encoding of each constructor is its row's opcode byte and operand bytes, which that row's equation
decodes; of the default arm well-formedness says that its byte belongs to no other row. -/
theorem decodeOfEncode : Obligations.DecodeOfEncode := by
  intro i rest hwf
  cases i with
  | jsr abs16 =>
    have h := decode_jsr (lo8 abs16) (hi8 abs16) rest
    rwa [wordOf_hi8_lo8] at h
  | ldaZp zp8 => exact decode_ldaZp zp8 rest
  | ldaImm imm8 => exact decode_ldaImm imm8 rest
  | ldaZpX zp8 => exact decode_ldaZpX zp8 rest
  | illegal op => exact decode_illegal (wellFormed_illegal.mp hwf) rest

/-! ### What a decoded list holds -/

theorem decode_cons_truncated_iff {op : Byte} {rest : List Byte} :
    decode (op :: rest) = .error (.truncated op) ↔ rest.length < operandBytes (opcodeRow op) := by
  refine ⟨fun h => ?_, decode_cons_of_short⟩
  by_contra henough
  rw [decode_cons_of_enough henough] at h
  cases h

/-- A decoded list starts with an opcode byte and all the operand bytes of its row. -/
theorem exists_cons_of_decode_ok {bytes rest : List Byte} {i : Instr} (h : decode bytes = .ok (i, rest)) :
    ∃ op tail, bytes = op :: tail ∧ operandBytes (opcodeRow op) ≤ tail.length
      ∧ i = decodeBytes op (tail.getD 0 0) (tail.getD 1 0) ∧ rest = tail.drop (operandBytes (opcodeRow op)) := by
  cases bytes with
  | nil => cases h
  | cons op tail =>
    by_cases hshort : tail.length < operandBytes (opcodeRow op)
    · rw [decode_cons_of_short hshort] at h
      cases h
    · rw [decode_cons_of_enough hshort] at h
      cases h
      exact ⟨op, tail, rfl, not_lt.mp hshort, rfl, rfl⟩

/-- What the decoder spells is well formed: the default arm is answered for no legal byte (R50). -/
theorem decodeBytes_wellFormed (op b1 b2 : Byte) : (decodeBytes op b1 b2).wellFormed = true := by
  rcases opcode_cases op with rfl | rfl | rfl | rfl | hillegal
  case inr.inr.inr.inr =>
    rw [decodeBytes_of_not_legal hillegal]
    exact wellFormed_illegal.mpr hillegal
  all_goals rfl

/-- The encoding of what an opcode byte and its operand bytes spell is those bytes. -/
theorem encode_decodeBytes_append_drop {op : Byte} {tail : List Byte}
    (h : operandBytes (opcodeRow op) ≤ tail.length) :
    encode (decodeBytes op (tail.getD 0 0) (tail.getD 1 0)) ++ tail.drop (operandBytes (opcodeRow op)) = op :: tail := by
  rcases opcode_cases op with rfl | rfl | rfl | rfl | hillegal
  case inr.inr.inr.inr => rw [decodeBytes_of_not_legal hillegal, opcodeRow_of_not_legal hillegal]; rfl
  case inl =>
    match tail, h with
    | lo :: hi :: tail, _ =>
      change 0x20 :: lo8 (wordOf hi lo) :: hi8 (wordOf hi lo) :: tail = _
      rw [lo8_wordOf, hi8_wordOf]
  all_goals
    match tail, h with
    | operand :: tail, _ => rfl

/-- Settles O22: the list decoded is an opcode byte with the operand bytes of its row, `encode_decodeBytes_append_drop`. -/
theorem encodeOfDecode : Obligations.EncodeOfDecode := by
  intro bytes rest i h
  obtain ⟨op, tail, rfl, henough, rfl, rfl⟩ := exists_cons_of_decode_ok h
  exact ⟨decodeBytes_wellFormed op _ _, encode_decodeBytes_append_drop henough⟩

/-- How many operand bytes an opcode byte asks for (R46). -/
theorem operandBytes_cases (op : Byte) :
    (op = 0x20 ∧ op ∈ legalOpcodes ∧ operandBytes (opcodeRow op) = 2)
    ∨ (op ≠ 0x20 ∧ op ∈ legalOpcodes ∧ operandBytes (opcodeRow op) = 1)
    ∨ (op ≠ 0x20 ∧ op ∉ legalOpcodes ∧ operandBytes (opcodeRow op) = 0) := by
  rcases opcode_cases op with rfl | rfl | rfl | rfl | hillegal
  case inl => exact .inl (by decide)
  case inr.inr.inr.inr =>
    refine .inr (.inr ⟨fun h => hillegal (h ▸ by decide), hillegal, ?_⟩)
    rw [opcodeRow_of_not_legal hillegal]
    rfl
  all_goals exact .inr (.inl (by decide))

/-- R48's two conditions for want of bytes. -/
theorem length_lt_operandBytes_iff (op : Byte) (rest : List Byte) :
    rest.length < operandBytes (opcodeRow op) ↔ (op = 0x20 ∧ rest.length < 2) ∨ (op ∈ legalOpcodes ∧ rest = []) := by
  rw [← List.length_eq_zero_iff]
  rcases operandBytes_cases op with ⟨rfl, hlegal, hbytes⟩ | ⟨hjsr, hlegal, hbytes⟩ | ⟨hjsr, hlegal, hbytes⟩
  · simp only [hbytes, hlegal, true_and]
    omega
  · simp only [hbytes, hjsr, hlegal, true_and, false_and, false_or, Nat.lt_one_iff]
  · simp only [hbytes, hjsr, hlegal, false_and, or_false, Nat.not_lt_zero]

/-- Settles O23: a list fails exactly where it is shorter than the row of its opcode byte asks. -/
theorem decodeFailsOnlyForWantOfBytes : Obligations.DecodeFailsOnlyForWantOfBytes := by
  refine ⟨rfl, fun op rest => ⟨decode_cons_truncated_iff.trans (length_lt_operandBytes_iff op rest), ?total⟩⟩
  by_cases hshort : rest.length < operandBytes (opcodeRow op)
  · exact .inr (decode_cons_of_short hshort)
  · exact .inl ⟨_, decode_cons_of_enough hshort⟩

/-- Settles O24: each word by its row's equation. -/
theorem specWordsDecode : Obligations.SpecWordsDecode :=
  ⟨decode_ldaImm 0x42 [], decode_ldaZp 0x10 [], decode_ldaZpX 0x10 [], decode_jsr 0x34 0x12 [],
    decode_illegal (by decide) [0x42], decode_illegal (by decide) []⟩

end Sys2Proof
end

/-! ## Proofs: the subroutine call (42_subroutine_call.md section 2) -/
section
namespace Sys2Proof.Machine

/-- The state that R73 gives after a jump to `target`: the return address `PC0 + 2` in the two slots from `SP0` down, high byte
first, `SP` lower by 2, everything else as it was. -/
def calledState (s : State) (target : Word) : State :=
  { s with
    pc := target
    sp := s.sp - 2
    mem := ((s.store (stackSlot s.sp) (hi8 (s.pc + 2))).store (stackSlot (s.sp - 1)) (lo8 (s.pc + 2))).mem }

/-- `PC` past the three bytes, less one, is the address of the third byte. -/
theorem pc_add_three_sub_one (pc : Word) : pc + 3 - 1 = pc + 2 := by bv_omega

theorem sp_sub_one_sub_one (sp : Byte) : sp - 1 - 1 = sp - 2 := by bv_omega

theorem exec_jsr_called (s : State) (target : Word) : exec (.jsr target) s = .next (calledState s target) := by
  rw [exec_jsr, pc_add_three_sub_one, sp_sub_one_sub_one]
  rfl

section CalledState

variable (s : State) (target : Word)

@[simp] theorem calledState_a : (calledState s target).a = s.a := rfl
@[simp] theorem calledState_x : (calledState s target).x = s.x := rfl
@[simp] theorem calledState_y : (calledState s target).y = s.y := rfl
@[simp] theorem calledState_pc : (calledState s target).pc = target := rfl
@[simp] theorem calledState_sp : (calledState s target).sp = s.sp - 2 := rfl
@[simp] theorem calledState_flags : (calledState s target).flags = s.flags := rfl
@[simp] theorem calledState_fault : (calledState s target).fault = s.fault := rfl

/-- The upper slot keeps the high byte: the push of the low byte goes to another address. -/
theorem calledState_load_upper : (calledState s target).load (stackSlot s.sp) = hi8 (s.pc + 2) :=
  (State.load_store_ne _ _ (stackSlot_ne_below s.sp)).trans (State.load_store_same _ _ _)

theorem calledState_load_lower : (calledState s target).load (stackSlot (s.sp - 1)) = lo8 (s.pc + 2) :=
  State.load_store_same _ _ _

theorem calledState_load_of_ne {addr : Word} (hupper : addr ≠ stackSlot s.sp) (hlower : addr ≠ stackSlot (s.sp - 1)) :
    (calledState s target).load addr = s.load addr :=
  (State.load_store_ne _ _ hlower).trans (State.load_store_ne _ _ hupper)

theorem calledState_wf (h : s.mem.wf) : (calledState s target).mem.wf :=
  State.store_wf (State.store_wf h _ _) _ _

end CalledState

/-- The two bytes of a word, as the number they spell. -/
theorem hi8_mul_add_lo8 (w : Word) : (hi8 w).toNat * 256 + (lo8 w).toNat = w.toNat := by
  rw [← wordOf_toNat, wordOf_hi8_lo8]

theorem returnAddress_toNat (pc : Word) : (pc + 2).toNat = (pc.toNat + 2) % 65536 := BitVec.toNat_add pc 2

/-- The slot below, by its number (D5). -/
theorem stackSlot_below_toNat (sp : Byte) : (stackSlot (sp - 1)).toNat = 0x100 + (sp.toNat + 255) % 256 := by
  rw [stackSlot_toNat]
  bv_omega

theorem sp_sub_two_toNat (sp : Byte) : (sp - 2).toNat = (sp.toNat + 254) % 256 := by bv_omega

/-- Settles O16: the state answered is `calledState`; each conjunct is one of its field or load lemmas. -/
theorem jsrPushesReturnAddressAndJumps : Obligations.JsrPushesReturnAddressAndJumps := by
  intro s target
  refine ⟨calledState s target, exec_jsr_called s target, rfl, sp_sub_two_toNat s.sp, stackSlot_toNat s.sp,
    stackSlot_below_toNat s.sp, ?returnAddress, fun addr => calledState_load_of_ne s target, rfl, rfl, rfl, rfl, rfl⟩
  case returnAddress =>
    rw [calledState_load_upper, calledState_load_lower, hi8_mul_add_lo8, returnAddress_toNat]

/-! ### The two pushes as one word write (R74) -/

/-- Away from the wrap, the address R74 names is the lower slot's. -/
theorem lowerSlot_toNat {sp : Byte} (h : sp ≠ 0) :
    (0x0100 : Int) + sp.toNat - 1 = ((stackSlot (sp - 1)).toNat : Int) := by
  have hslots := congrArg BitVec.toNat (stackSlot_below_add_one h)
  have hlower := stackSlot_below_toNat sp
  have hpos : sp.toNat ≠ 0 := fun e => h (BitVec.eq_of_toNat_eq e)
  have hlt := sp.isLt
  omega

/-- The word write stores the low byte first and the pushes the high byte first; the slots differ, so as data the memories are
equal. -/
theorem writeWord_lowerSlot {s : State} (hwf : s.mem.wf) (hsp : s.sp ≠ 0) (target : Word) (n : Int) :
    s.mem.writeWord (0x0100 + s.sp.toNat - 1) (s.pc + 2) n = .ok ((calledState s target).mem, n - 2) := by
  have hlower := word_lt_memSize (stackSlot (s.sp - 1))
  have hupper := word_lt_memSize (stackSlot s.sp)
  have hne : (stackSlot (s.sp - 1)).toNat ≠ (stackSlot s.sp).toNat := fun e =>
    stackSlot_ne_below s.sp (BitVec.eq_of_toNat_eq e.symm)
  have haddr := lowerSlot_toNat hsp
  have hnext : ((stackSlot (s.sp - 1)).toNat : Int) + 1 = ((stackSlot s.sp).toNat : Int) := by
    rw [← haddr, stackSlot_toNat]
    omega
  rw [haddr, Memory.writeWord_inRange _ _ _ ⟨by omega, by omega⟩ ⟨by omega, by omega⟩, hnext, Int.toNat_natCast,
    Int.toNat_natCast, Memory.set_comm hwf hlower hupper hne]
  rfl

/-- Settles O18: away from the wrap the pushes are one word write, and at `SP0 = 0` the two slots are 0x0100 and 0x01FF. -/
theorem jsrPushEqualsWordWrite : Obligations.JsrPushEqualsWordWrite := by
  intro s target n hwf
  refine ⟨calledState s target, exec_jsr_called s target, fun hsp => writeWord_lowerSlot hwf hsp target n, fun hsp => ?wrap⟩
  have hupper : stackSlot s.sp = 0x0100 := by rw [hsp]; rfl
  have hlower : stackSlot (s.sp - 1) = 0x01FF := by rw [hsp]; rfl
  refine ⟨hlower ▸ calledState_load_lower s target, hupper ▸ calledState_load_upper s target,
    calledState_load_of_ne s target ?_ ?_⟩
  · rw [hupper]; decide
  · rw [hlower]; decide

/-! ### A call met as bytes at `PC` -/

theorem step_of_jsr {s : State} (hready : s.fault = none) (hop : s.load s.pc = 0x20) :
    step s = exec (.jsr (wordOf (s.load (s.pc + 2)) (s.load (s.pc + 1)))) s := by
  rw [step_of_ready hready, fetchInstr, hop, decodeBytes_jsr]

/-- The run after the opcode byte and both operand bytes: `PC` past the three, three cycles, three reads. -/
theorem fetchWord_fetchByte_start (s : State) (n : Int) : fetchWord (fetchByte (Run.start s n)).2 =
    (wordOf (s.load (s.pc + 2)) (s.load (s.pc + 1)),
      { st := s.advancePc 3, budget := n - 3,
        trace := [.read s.pc (s.load s.pc), .read (s.pc + 1) (s.load (s.pc + 1)),
          .read (s.pc + 2) (s.load (s.pc + 2))] }) := by
  have hthird : s.pc + 1 + 1 = s.pc + 2 := BitVec.add_assoc s.pc 1 1
  have hpc : ((s.advancePc 1).advancePc 1).advancePc 1 = s.advancePc 3 := by
    rw [State.advancePc_advancePc, State.advancePc_advancePc]
    rfl
  have hbudget : n - 1 - 1 - 1 = n - 3 := by omega
  rw [← hthird, ← hpc, ← hbudget]
  rfl

/-- `calledState` in the named updates that `callSubroutine_eq` speaks in. -/
theorem pushes_setPc_advancePc (s : State) (target : Word) :
    (((((s.advancePc 3).store (stackSlot s.sp) (hi8 (s.pc + 2))).setSp (s.sp - 1)).store (stackSlot (s.sp - 1))
      (lo8 (s.pc + 2))).setSp (s.sp - 2)).setPc target = calledState s target := rfl

/-- The whole target is fetched, in three reads, before the first push (D25). -/
theorem stepRun_jsr {s : State} (hready : s.fault = none) (hop : s.load s.pc = 0x20) (n : Int) :
    stepRun (Run.start s n) =
      { st := calledState s (wordOf (s.load (s.pc + 2)) (s.load (s.pc + 1))), budget := n - 5,
        trace := [.read s.pc 0x20, .read (s.pc + 1) (s.load (s.pc + 1)), .read (s.pc + 2) (s.load (s.pc + 2)),
          .write (stackSlot s.sp) (hi8 (s.pc + 2)), .write (stackSlot (s.sp - 1)) (lo8 (s.pc + 2))] } := by
  have hbudget : n - 3 - 1 - 1 = n - 5 := by omega
  rw [stepRun_of_ready hready, Run.start_st, hop, dispatchRun_jsr, fetchWord_fetchByte_start, hop,
    callSubroutine_eq, State.advancePc_pc, State.advancePc_sp, pc_add_three_sub_one, sp_sub_one_sub_one,
    pushes_setPc_advancePc, hbudget]
  rfl

/-- Settles O17: the target is the word the two operand bytes spell, and the rest is read off `stepRun_jsr`. -/
theorem jsrFetchesTargetBeforePushing : Obligations.JsrFetchesTargetBeforePushing := by
  intro s target n hready hop htarget
  have hword : wordOf (s.load (s.pc + 2)) (s.load (s.pc + 1)) = target :=
    BitVec.eq_of_toNat_eq ((wordOf_toNat _ _).trans htarget.symm)
  rw [stepRun_jsr hready hop, hword]
  exact ⟨hword ▸ step_of_jsr hready hop, rfl, rfl, hi8 (s.pc + 2), lo8 (s.pc + 2),
    (hi8_mul_add_lo8 _).trans (returnAddress_toNat s.pc), rfl⟩

/-- After a `JSR` to its own lower slot, away from the wrap, the next byte at `PC` is the low byte pushed and the one above it
the high byte. -/
theorem calledState_load_pc (s : State) (h : s.sp ≠ 0) :
    (calledState s (stackSlot (s.sp - 1))).load (stackSlot (s.sp - 1)) = lo8 (s.pc + 2)
    ∧ (calledState s (stackSlot (s.sp - 1))).load (stackSlot (s.sp - 1) + 1) = hi8 (s.pc + 2) := by
  rw [stackSlot_below_add_one h]
  exact ⟨calledState_load_lower s _, calledState_load_upper s _⟩

/-- Settles O19: after the jump the opcode byte at `PC` is the low byte pushed and its operand byte the high one, so the
second step is `LDA #imm8`. -/
theorem pushedBytesAreFetchedNext : Obligations.PushedBytesAreFetchedNext := by
  intro s hready hop hsp htarget hlow
  obtain ⟨hopcode, hoperand⟩ := calledState_load_pc s hsp
  refine ⟨calledState s (stackSlot (s.sp - 1)), loadedState (calledState s (stackSlot (s.sp - 1))) (hi8 (s.pc + 2)),
    ?jump, ?load, rfl, rfl, rfl⟩
  case jump => rw [step_of_jsr hready hop, htarget, exec_jsr_called]
  case load =>
    rw [step_of_ldaImm (s := calledState s _) hready (hopcode.trans hlow), calledState_pc, hoperand, exec_ldaImm_loaded]

end Sys2Proof.Machine
end

/-! ## Proofs: the indexed load and the illegal opcode (41_load_accumulator.md section 4, 60_exceptions.md) -/
section
namespace Sys2Proof.Machine

theorem step_of_ldaZpX {s : State} (hready : s.fault = none) (hop : s.load s.pc = 0xB5) :
    step s = exec (.ldaZpX (s.load (s.pc + 1))) s := by
  rw [step_of_ready hready, fetchInstr, hop, decodeBytes_ldaZpX]

theorem stepRun_ldaZpX {s : State} (hready : s.fault = none) (hop : s.load s.pc = 0xB5) {ea : Word}
    (hea : zeroPageIndexed (s.load (s.pc + 1)) s.x = ea) (n : Int) :
    stepRun (Run.start s n) =
      { st := loadedState s (s.load ea), budget := n - 3,
        trace := [.read s.pc 0xB5, .read (s.pc + 1) (s.load (s.pc + 1)), .read ea (s.load ea)] } := by
  have hbudget : n - 2 - 1 = n - 3 := by omega
  rw [stepRun_of_ready hready, Run.start_st, hop, dispatchRun_ldaZpX, fetchByte_fetchByte_start, fetchByte_snd,
    State.advancePc_x, Run.start_st, loadAccumulator_address, hop, hea, ← setA_setFlags_advancePc, ← hbudget]
  rfl

/-- The number of an indexed zero page address fixes it (R63). -/
theorem zeroPageIndexed_eq_of_toNat {zp index : Byte} {ea : Word} (h : ea.toNat = (zp.toNat + index.toNat) % 256) :
    zeroPageIndexed zp index = ea :=
  BitVec.eq_of_toNat_eq ((zeroPageIndexed_toNat zp index).trans h.symm)

/-- Settles O13: the address is `zeroPageIndexed zp8 X` by its number, and at the step the operand byte is the one after the
opcode. -/
theorem ldaZeroPageXLoadsWrappedCell : Obligations.LdaZeroPageXLoadsWrappedCell := by
  intro s zp8 ea hnum
  have hea : zeroPageIndexed zp8 s.x = ea := zeroPageIndexed_eq_of_toNat hnum
  have hexec : exec (.ldaZpX zp8) s = .next (loadedState s (s.load ea)) := hea ▸ exec_ldaZpX_loaded s zp8
  refine ⟨hexec, fun hready hop hoperand => ?bytes⟩
  subst hoperand
  exact ⟨(step_of_ldaZpX hready hop).trans hexec, fun n => stepRun_ldaZpX hready hop hea n⟩

theorem zeroPageIndexed_zero (zp : Byte) : zeroPageIndexed zp 0 = zeroPageAddr zp :=
  congrArg zext16 (BitVec.add_zero zp)

/-- Settles O14: with index 0 both forms read the same address. -/
theorem zeroIndexLoadsAsZeroPage : Obligations.ZeroIndexLoadsAsZeroPage := by
  intro s zp8 hx
  rw [exec_ldaZpX_loaded, exec_ldaZp_loaded, hx, zeroPageIndexed_zero]

/-! ### What the loads depend on (20_memory.md section 6) -/

theorem inZeroPage_zeroPageAddr (zp : Byte) : InZeroPage (zeroPageAddr zp) := by
  have h := zp.isLt
  rw [InZeroPage, zeroPageAddr_toNat]
  omega

/-- The index sum is a byte, so it names a zero page address too (R63). -/
theorem inZeroPage_zeroPageIndexed (zp index : Byte) : InZeroPage (zeroPageIndexed zp index) :=
  inZeroPage_zeroPageAddr (zp + index)

/-- Machines with equal `X` and zero pages load the same byte by the same instruction. -/
theorem exec_load_same_byte {s s' : State} {v : Byte} {i : Instr} (hi : i = .ldaImm v ∨ i = .ldaZp v ∨ i = .ldaZpX v)
    (hx : s.x = s'.x) (hpage : ∀ addr : Word, InZeroPage addr → s.load addr = s'.load addr) :
    ∃ b, exec i s = .next (loadedState s b) ∧ exec i s' = .next (loadedState s' b) := by
  rcases hi with rfl | rfl | rfl
  · exact ⟨v, exec_ldaImm_loaded s v, exec_ldaImm_loaded s' v⟩
  · refine ⟨_, exec_ldaZp_loaded s v, ?_⟩
    rw [hpage _ (inZeroPage_zeroPageAddr v)]
    exact exec_ldaZp_loaded s' v
  · refine ⟨_, exec_ldaZpX_loaded s v, ?_⟩
    rw [hpage _ (inZeroPage_zeroPageIndexed v s.x), hx]
    exact exec_ldaZpX_loaded s' v

/-- Settles O15: `A`, `Z` and `N` of a loaded state are functions of the byte loaded. -/
theorem loadsSeeOnlyZeroPage : Obligations.LoadsSeeOnlyZeroPage := by
  intro s s' t t' v i hi hx hpage ht ht'
  obtain ⟨b, hb, hb'⟩ := exec_load_same_byte hi hx hpage
  cases Host.Outcome.next.inj (ht.symm.trans hb)
  cases Host.Outcome.next.inj (ht'.symm.trans hb')
  exact ⟨rfl, rfl, rfl⟩

/-! ### The illegal opcode -/

/-- The state that R88 and R92 give after an illegal byte at `PC`: `PC` past it, the fault status set, everything else as it
was. -/
def trappedState (s : State) : State := { s with pc := s.pc + 1, fault := some (.illegalOpcode (s.load s.pc) s.pc) }

theorem step_of_illegal {s : State} (hready : s.fault = none) (hop : s.load s.pc ∉ legalOpcodes) :
    step s = .next (trappedState s) := by
  rw [step_of_ready hready, fetchInstr, decodeBytes_of_not_legal hop, exec_illegal]
  rfl

theorem stepRun_illegal {s : State} (hready : s.fault = none) (hop : s.load s.pc ∉ legalOpcodes) (n : Int) :
    stepRun (Run.start s n) = { st := trappedState s, budget := n - 1, trace := [.read s.pc (s.load s.pc)] } := by
  rw [stepRun_of_ready hready, Run.start_st, dispatchRun_illegal hop]
  rfl

/-- Settles O20: `trappedState`, by `exec` and by both forms of the step. -/
theorem illegalOpcodeTakesFault : Obligations.IllegalOpcodeTakesFault := by
  intro s op
  refine ⟨exec_illegal s op, fun hready hop hillegal => ?bytes⟩
  subst hop
  exact ⟨step_of_illegal hready hillegal, stepRun_illegal hready hillegal⟩

end Sys2Proof.Machine
end

/-! ## Proofs: what one step can do (43_instruction_cycle.md section 1) -/
section
namespace Sys2Proof.Machine

/-- The opcode bytes of the three loads. -/
abbrev loadOpcodes : List Byte := [0xA5, 0xA9, 0xB5]

/-- Every step of an unfaulted machine: a jump, a load of some byte, or an illegal byte. -/
theorem step_cases_of_ready {s : State} (hready : s.fault = none) :
    (s.load s.pc = 0x20 ∧ step s = .next (calledState s (wordOf (s.load (s.pc + 2)) (s.load (s.pc + 1)))))
    ∨ (s.load s.pc ∈ loadOpcodes ∧ ∃ v, step s = .next (loadedState s v))
    ∨ (s.load s.pc ∉ legalOpcodes ∧ step s = .next (trappedState s)) := by
  rcases opcode_cases (s.load s.pc) with hop | hop | hop | hop | hop
  · exact .inl ⟨hop, (step_of_jsr hready hop).trans (exec_jsr_called s _)⟩
  · exact .inr (.inl ⟨hop ▸ by decide, _, (step_of_ldaZp hready hop).trans (exec_ldaZp_loaded s _)⟩)
  · exact .inr (.inl ⟨hop ▸ by decide, _, (step_of_ldaImm hready hop).trans (exec_ldaImm_loaded s _)⟩)
  · exact .inr (.inl ⟨hop ▸ by decide, _, (step_of_ldaZpX hready hop).trans (exec_ldaZpX_loaded s _)⟩)
  · exact .inr (.inr ⟨hop, step_of_illegal hready hop⟩)

/-- The inversion of a step that answers a next state. -/
theorem step_cases {s t : State} (h : step s = .next t) : s.fault = none ∧
    ((s.load s.pc = 0x20 ∧ t = calledState s (wordOf (s.load (s.pc + 2)) (s.load (s.pc + 1))))
    ∨ (s.load s.pc ∈ loadOpcodes ∧ ∃ v, t = loadedState s v)
    ∨ (s.load s.pc ∉ legalOpcodes ∧ t = trappedState s)) := by
  obtain ⟨hready, -⟩ := step_next h
  refine ⟨hready, ?_⟩
  rcases step_cases_of_ready hready with ⟨hop, hs⟩ | ⟨hop, v, hs⟩ | ⟨hop, hs⟩
  · exact .inl ⟨hop, Host.Outcome.next.inj (h.symm.trans hs)⟩
  · exact .inr (.inl ⟨hop, v, Host.Outcome.next.inj (h.symm.trans hs)⟩)
  · exact .inr (.inr ⟨hop, Host.Outcome.next.inj (h.symm.trans hs)⟩)

theorem jsr_mem_legalOpcodes : (0x20 : Byte) ∈ legalOpcodes := by decide
theorem jsr_not_mem_loadOpcodes : (0x20 : Byte) ∉ loadOpcodes := by decide
theorem mem_legalOpcodes_of_load {op : Byte} (h : op ∈ loadOpcodes) : op ∈ legalOpcodes := List.mem_cons_of_mem _ h
theorem ne_jsr_of_load {op : Byte} (h : op ∈ loadOpcodes) : op ≠ 0x20 := by
  rintro rfl
  exact jsr_not_mem_loadOpcodes h

/-! ### The invariant (R18, R68, R88) -/

/-- With no fault standing there is nothing to be truthful about. -/
theorem State.faultTruthful_of_unfaulted {s : State} (h : s.fault = none) : s.FaultTruthful := by
  intro f hf
  rw [h] at hf
  cases hf

/-- The flags of a loaded state are those the flag stage leaves. -/
theorem loadedState_flagsConsistent (s : State) (v : Byte) : (loadedState s v).FlagsConsistent := by
  rw [← ldaSetStatus_loadedState]
  exact State.ldaSetStatus_flagsConsistent _

theorem trappedState_faultTruthful {s : State} (h : s.load s.pc ∉ legalOpcodes) : (trappedState s).FaultTruthful := by
  intro f hf
  cases hf
  exact ⟨s.load s.pc, s.pc, rfl, h, rfl, rfl⟩

/-- Settles O32: a jump keeps canonical memory and the flags, a load sets consistent flags, an illegal byte's fault is
truthful; what each does not touch it keeps. -/
theorem stepKeepsInvariant : Obligations.StepKeepsInvariant := by
  rintro s t ⟨hmem, hflags, -⟩ hstep
  obtain ⟨hready, ⟨-, rfl⟩ | ⟨-, v, rfl⟩ | ⟨hop, rfl⟩⟩ := step_cases hstep
  · exact ⟨calledState_wf s _ hmem, hflags, State.faultTruthful_of_unfaulted hready⟩
  · exact ⟨hmem, loadedState_flagsConsistent s v, State.faultTruthful_of_unfaulted hready⟩
  · exact ⟨hmem, hflags, trappedState_faultTruthful hop⟩

/-- Settles O33: memory is empty, every flag is clear and no fault stands. -/
theorem resetStateMeetsInvariant : Obligations.ResetStateMeetsInvariant :=
  ⟨State.reset_mem_wf, by decide, State.faultTruthful_of_unfaulted rfl⟩

/-! ### Completion, frame and `PC` of a step -/

/-- Settles O28: the jump and the loads leave the fault status empty, an illegal byte sets it. -/
theorem unfaultedStepCompletes : Obligations.UnfaultedStepCompletes := by
  intro s hready
  rcases step_cases_of_ready hready with ⟨hop, hs⟩ | ⟨hop, v, hs⟩ | ⟨hop, hs⟩
  · exact ⟨_, hs, iff_of_true hready (hop ▸ jsr_mem_legalOpcodes)⟩
  · exact ⟨_, hs, iff_of_true hready (mem_legalOpcodes_of_load hop)⟩
  · exact ⟨_, hs, iff_of_false (Option.some_ne_none _) hop⟩

/-- A load writes no flag but `Z` and `N` (R68). -/
theorem hostReadFlag_loadedState (s : State) (v : Byte) {f : Flag} (hz : f ≠ .z) (hn : f ≠ .n) :
    hostReadFlag (loadedState s v) f = hostReadFlag s f := by
  cases f with
  | z => exact absurd rfl hz
  | n => exact absurd rfl hn
  | c | i | d | b | v => rfl

theorem hostReadFlag_of_flags_eq {s t : State} (h : t.flags = s.flags) (f : Flag) : hostReadFlag t f = hostReadFlag s f := by
  cases f <;> simp only [hostReadFlag, h]

/-- Settles O35: case by case of `step_cases`, what the opcode byte excludes is excluded by membership in the opcode lists. -/
theorem stepFrameByOpcode : Obligations.StepFrameByOpcode := by
  intro s t hstep
  obtain ⟨hready, ⟨hop, rfl⟩ | ⟨hop, v, rfl⟩ | ⟨hop, rfl⟩⟩ := step_cases hstep
  · exact ⟨fun hne => absurd hop hne, fun _ => ⟨rfl, rfl⟩, fun _ => hready, rfl, rfl,
      fun f _ _ => hostReadFlag_of_flags_eq rfl f⟩
  · exact ⟨fun _ => ⟨rfl, fun _ => rfl⟩, fun hne => absurd hop hne, fun _ => hready, rfl, rfl,
      fun f hz hn => hostReadFlag_loadedState s v hz hn⟩
  · exact ⟨fun _ => ⟨rfl, fun _ => rfl⟩, fun _ => ⟨rfl, rfl⟩, fun hlegal => absurd hlegal hop, rfl, rfl,
      fun f _ _ => hostReadFlag_of_flags_eq rfl f⟩

/-- Settles O36: the `PC` of each case of `step_cases`; the opcode byte fits only one of them. -/
theorem programCounterAfterStep : Obligations.ProgramCounterAfterStep := by
  intro s t hstep
  obtain ⟨-, ⟨hop, rfl⟩ | ⟨hop, v, rfl⟩ | ⟨hop, rfl⟩⟩ := step_cases hstep
  · exact ⟨fun _ => wordOf_toNat _ _, fun hload => absurd hop (ne_jsr_of_load hload),
      fun hillegal => absurd (hop ▸ jsr_mem_legalOpcodes) hillegal⟩
  · exact ⟨fun hjsr => absurd hjsr (ne_jsr_of_load hop), fun _ => BitVec.toNat_add s.pc 2,
      fun hillegal => absurd (mem_legalOpcodes_of_load hop) hillegal⟩
  · exact ⟨fun hjsr => absurd (hjsr ▸ jsr_mem_legalOpcodes) hop, fun hload => absurd (mem_legalOpcodes_of_load hload) hop,
      fun _ => BitVec.toNat_add s.pc 1⟩

/-- Settles O26: what the bytes at `PC` decode to is `fetchInstr`, and only well-formed instructions are decoded. -/
theorem stepRunsDecodedInstruction : Obligations.StepRunsDecodedInstruction := by
  intro s i rest hready hdecode
  obtain ⟨op, tail, hbytes, -, rfl, -⟩ := exists_cons_of_decode_ok hdecode
  obtain ⟨rfl, rfl⟩ := List.cons.inj hbytes
  exact ⟨decodeBytes_wellFormed _ _ _, step_of_ready hready⟩

end Sys2Proof.Machine
end

/-! ## Proofs: cycles and transactions of one `Step()` (43_instruction_cycle.md sections 1 to 3) -/
section
namespace Sys2Proof.Machine

/-! ### What a run did before changes nothing of what it does next

A run `d` seen after an earlier part `r`: the budget and the transactions of `r` are carried along, and every operation of the
cycle commutes with that. -/

/-- `d`, with the budget and the transactions of the part before it. -/
def Run.extend (r d : Run) : Run := { st := d.st, budget := r.budget + d.budget, trace := r.trace ++ d.trace }

section Extend

variable (r d : Run)

@[simp] theorem Run.extend_st : (r.extend d).st = d.st := rfl
@[simp] theorem Run.extend_budget : (r.extend d).budget = r.budget + d.budget := rfl
@[simp] theorem Run.extend_trace : (r.extend d).trace = r.trace ++ d.trace := rfl

/-- A run is itself, begun again from nothing. -/
theorem Run.extend_start : r.extend (Run.start r.st 0) = r := by
  simp [Run.extend]

theorem Run.charge_extend (t : Access) : (r.extend d).charge t = r.extend (d.charge t) := by
  simp only [Run.extend, Run.charge, Int.add_sub_assoc, List.append_assoc]

theorem fetchByte_extend : fetchByte (r.extend d) = ((fetchByte d).1, r.extend (fetchByte d).2) := by
  simp only [fetchByte, Run.charge_extend]
  rfl

theorem fetchWord_extend : fetchWord (r.extend d) = ((fetchWord d).1, r.extend (fetchWord d).2) := by
  simp only [fetchWord, fetchByte_extend]

theorem readByte_extend (addr : Word) : readByte addr (r.extend d) = ((readByte addr d).1, r.extend (readByte addr d).2) := by
  simp only [readByte, Run.charge_extend, Run.extend_st]

theorem push_extend (b : Byte) : push b (r.extend d) = r.extend (push b d) := by
  simp only [push, Run.charge_extend]
  rfl

theorem callSubroutine_extend (target : Word) : callSubroutine target (r.extend d) = r.extend (callSubroutine target d) := by
  simp only [callSubroutine, push_extend]
  rfl

theorem loadAccumulator_extend (o : Resolved) : loadAccumulator o (r.extend d) = r.extend (loadAccumulator o d) := by
  cases o with
  | literal v => rfl
  | address ea =>
    simp only [loadAccumulator, operandValue, readByte_extend]
    rfl

theorem runLda_extend (mode : Mode) : runLda mode (r.extend d) = r.extend (runLda mode d) := by
  cases mode <;>
    simp only [runLda, resolve, fetchByte_extend, fetchWord_extend, Run.extend_st, loadAccumulator_extend]

theorem runJsr_extend : runJsr (r.extend d) = r.extend (runJsr d) := by
  simp only [runJsr, fetchWord_extend, callSubroutine_extend]

theorem dispatchRun_extend (op : Byte) (at_ : Word) : dispatchRun op at_ (r.extend d) = r.extend (dispatchRun op at_ d) := by
  rcases opcode_cases op with rfl | rfl | rfl | rfl | hillegal
  · exact runJsr_extend r d
  · exact runLda_extend r d .zeroPage
  · exact runLda_extend r d .immediate
  · exact runLda_extend r d .zeroPageX
  · rw [dispatchRun_illegal hillegal, dispatchRun_illegal hillegal]
    rfl

theorem stepRun_extend : stepRun (r.extend d) = r.extend (stepRun d) := by
  cases hf : d.st.fault with
  | none => rw [stepRun_of_ready hf, stepRun_of_ready (r := r.extend d) hf, fetchByte_extend, dispatchRun_extend]; rfl
  | some f => rw [stepRun_of_faulted hf, stepRun_of_faulted (r := r.extend d) hf]

end Extend

/-! ### One step: the state, the cycles and the bytes moved -/

theorem cycleCost_of_not_legal {op : Byte} (h : op ∉ legalOpcodes) : cycleCost op = 1 := by
  simp only [legalOpcodes, List.mem_cons, List.not_mem_nil, or_false, not_or] at h
  obtain ⟨hjsr, hzp, himm, hzpX⟩ := h
  rw [cycleCost, if_neg hjsr, if_neg hzp, if_neg himm, if_neg hzpX]

/-- No legal opcode costs less than `LDA #imm8` (R81). -/
theorem two_le_cycleCost_of_legal : ∀ op ∈ legalOpcodes, 2 ≤ cycleCost op := by decide

theorem stepRun_start_spec {s : State} (hready : s.fault = none) (n : Int) :
    step s = .next (stepRun (Run.start s n)).st
    ∧ (stepRun (Run.start s n)).budget = n - cycleCost (s.load s.pc)
    ∧ (stepRun (Run.start s n)).trace.length = cycleCost (s.load s.pc) := by
  rcases opcode_cases (s.load s.pc) with hop | hop | hop | hop | hop
  · rw [stepRun_jsr hready hop, hop]
    exact ⟨(step_of_jsr hready hop).trans (exec_jsr_called s _), rfl, rfl⟩
  · rw [stepRun_ldaZp hready hop rfl, hop]
    exact ⟨(step_of_ldaZp hready hop).trans (exec_ldaZp_loaded s _), rfl, rfl⟩
  · rw [stepRun_ldaImm hready hop, hop]
    exact ⟨(step_of_ldaImm hready hop).trans (exec_ldaImm_loaded s _), rfl, rfl⟩
  · rw [stepRun_ldaZpX hready hop rfl, hop]
    exact ⟨(step_of_ldaZpX hready hop).trans (exec_ldaZpX_loaded s _), rfl, rfl⟩
  · rw [stepRun_illegal hready hop, cycleCost_of_not_legal hop]
    exact ⟨step_of_illegal hready hop, rfl, rfl⟩

/-- Settles O27: opcode by opcode, `Step()` reaches the state that `exec` of the decoded instruction answers. -/
theorem stepAgreesWithByteByByteCycle : Obligations.StepAgreesWithByteByByteCycle :=
  fun _ n hready => (stepRun_start_spec hready n).1

theorem step_eq_stepRun {r : Run} (hready : r.st.fault = none) : step r.st = .next (stepRun r).st := by
  rw [stepRun_st]
  exact (stepRun_start_spec hready 0).1

/-- Settles O30: a step of a run is the same step begun from nothing, whose charge `stepRun_start_spec` gives. -/
theorem stepChargesOneCyclePerByte : Obligations.StepChargesOneCyclePerByte := by
  intro r hready
  obtain ⟨-, hbudget, hlength⟩ := stepRun_start_spec hready 0
  have hstep : stepRun r = r.extend (stepRun (Run.start r.st 0)) := by rw [← stepRun_extend, Run.extend_start]
  refine ⟨?_, (stepRun (Run.start r.st 0)).trace, by rw [hstep, Run.extend_trace], hlength⟩
  rw [hstep, Run.extend_budget, hbudget]
  omega

theorem stepRun_budget {r : Run} (hready : r.st.fault = none) :
    (stepRun r).budget = r.budget - cycleCost (r.st.load r.st.pc) := (stepChargesOneCyclePerByte r hready).1

theorem stepRun_trace_length {r : Run} (hready : r.st.fault = none) :
    (stepRun r).trace.length = r.trace.length + cycleCost (r.st.load r.st.pc) := by
  obtain ⟨-, moved, htrace, hlength⟩ := stepChargesOneCyclePerByte r hready
  rw [htrace, List.length_append, hlength]

theorem stepRun_fault_of_not_legal {r : Run} (hready : r.st.fault = none) (hop : r.st.load r.st.pc ∉ legalOpcodes) :
    (stepRun r).st.fault = some (.illegalOpcode (r.st.load r.st.pc) r.st.pc) := by
  rw [stepRun_of_ready hready, dispatchRun_illegal hop]
  rfl

/-- Where a step raised no fault, it ran a legal opcode. -/
theorem legal_of_stepRun_unfaulted {r : Run} (hready : r.st.fault = none) (h : (stepRun r).st.fault = none) :
    r.st.load r.st.pc ∈ legalOpcodes := by
  by_contra hop
  rw [stepRun_fault_of_not_legal hready hop] at h
  cases h

/-! ### Extra cycles (D7) and the faulted machine (R83) -/

/-- Extra cycles are charged after the step, and only where it raised no fault. -/
theorem stepRunWith_of_ready (extra : Byte → Nat) {r : Run} (hready : r.st.fault = none) :
    stepRunWith extra r = if (stepRun r).st.fault.isSome then stepRun r
      else { stepRun r with budget := (stepRun r).budget - (extra (r.st.load r.st.pc) : Int) } := by
  rw [stepRun_of_ready hready]
  simp only [stepRunWith, hready]
  rfl

theorem stepRunWith_of_legal (extra : Byte → Nat) {r : Run} (hready : r.st.fault = none)
    (hop : r.st.load r.st.pc ∈ legalOpcodes) :
    stepRunWith extra r = { stepRun r with budget := (stepRun r).budget - (extra (r.st.load r.st.pc) : Int) } := by
  rw [stepRunWith_of_ready extra hready, stepRun_fault_of_legal hready hop]
  rfl

theorem stepRunWith_of_not_legal (extra : Byte → Nat) {r : Run} (hready : r.st.fault = none)
    (hop : r.st.load r.st.pc ∉ legalOpcodes) : stepRunWith extra r = stepRun r := by
  rw [stepRunWith_of_ready extra hready, stepRun_fault_of_not_legal hready hop]
  rfl

/-- Settles O31: a legal byte completes and is charged the extra cycles, an illegal one faults and is not. -/
theorem extraCyclesChangeOnlyBudget : Obligations.ExtraCyclesChangeOnlyBudget := by
  intro extra r hready
  by_cases hop : r.st.load r.st.pc ∈ legalOpcodes
  · rw [stepRunWith_of_legal extra hready hop, if_pos hop]
    exact ⟨rfl, rfl, rfl⟩
  · rw [stepRunWith_of_not_legal extra hready hop, if_neg hop, Int.sub_zero]
    exact ⟨rfl, rfl, rfl⟩

/-- Settles O29: each of the three tests the fault status first. -/
theorem faultedMachineTakesNoStep : Obligations.FaultedMachineTakesNoStep :=
  fun _ _ n hfault => ⟨step_of_faulted hfault, stepRun_of_faulted hfault, execute_of_faulted hfault n⟩

end Sys2Proof.Machine
end

/-! ## Proofs: the runs of `Execute` (43_instruction_cycle.md section 2) -/
section
namespace Sys2Proof.Machine

/-! ### One turn of the loop at this hardware's cycle costs -/

theorem executeLoop_of_spent {r : Run} (h : r.budget ≤ 0) (k : Nat) : executeLoop Config.extraCycles k r = r := by
  cases k with
  | zero => exact executeLoop_zero _ r
  | succ k => rw [executeLoop_succ, if_neg (not_lt.mpr h)]

theorem executeLoop_of_fault {r : Run} {f : Fault} (hbudget : 0 < r.budget) (hf : (stepRun r).st.fault = some f) (k : Nat) :
    executeLoop Config.extraCycles (k + 1) r = stepRun r := by
  rw [executeLoop_succ, if_pos hbudget]
  exact if_pos (Option.isSome_of_eq_some hf)

theorem executeLoop_of_unfaulted {r : Run} (hbudget : 0 < r.budget) (hf : (stepRun r).st.fault = none) (k : Nat) :
    executeLoop Config.extraCycles (k + 1) r = executeLoop Config.extraCycles k (stepRun r) := by
  rw [executeLoop_succ, if_pos hbudget]
  exact if_neg (by simp [show (stepRunWith Config.extraCycles r).st.fault = none from hf])

/-! ### The induction over a run, and where it ends -/

/-- What every step with budget left keeps, the loop keeps. -/
theorem executeLoop_induction {P : Run → Prop}
    (hstep : ∀ r : Run, r.st.fault = none → 0 < r.budget → P r → P (stepRun r)) (k : Nat) {r : Run}
    (hready : r.st.fault = none) (hr : P r) : P (executeLoop Config.extraCycles k r) := by
  induction k generalizing r with
  | zero => exact hr
  | succ k ih =>
    by_cases hbudget : 0 < r.budget
    · have hnext : P (stepRun r) := hstep r hready hbudget hr
      cases hf : (stepRun r).st.fault with
      | some f => rwa [executeLoop_of_fault hbudget hf]
      | none => rw [executeLoop_of_unfaulted hbudget hf]; exact ih hf hnext
    · rwa [executeLoop_of_spent (not_lt.mp hbudget)]

/-- What holds at the start of a run and is kept by every step holds at its end, however it ends. -/
theorem execute_induction {P : Run → Prop} {n : Int} {s : State} (hstart : P (Run.start s n))
    (hstep : ∀ r : Run, r.st.fault = none → 0 < r.budget → P r → P (stepRun r)) : P (execute n s).final := by
  cases hf : s.fault with
  | none => rw [execute_final hf]; exact executeLoop_induction hstep _ hf hstart
  | some f => rwa [execute_of_faulted hf]

/-- A step charges at least one cycle, so a loop bound of at least the budget ends by a fault or by the budget. -/
theorem executeLoop_ends (k : Nat) {r : Run} (hready : r.st.fault = none) (hk : r.budget ≤ k)
    (hend : (executeLoop Config.extraCycles k r).st.fault = none) :
    (executeLoop Config.extraCycles k r).budget ≤ 0 := by
  induction k generalizing r with
  | zero => exact_mod_cast hk
  | succ k ih =>
    by_cases hbudget : 0 < r.budget
    · cases hf : (stepRun r).st.fault with
      | some f => rw [executeLoop_of_fault hbudget hf, hf] at hend; cases hend
      | none =>
        rw [executeLoop_of_unfaulted hbudget hf] at hend ⊢
        have hcharge := stepRun_budget hready
        have hcost := (cycleCost_bounds (r.st.load r.st.pc)).1
        exact ih hf (by omega) hend
    · rw [executeLoop_of_spent (not_lt.mp hbudget)]
      omega

/-- Two bounds of at least the budget give the same run. -/
theorem executeLoop_fuel {j k : Nat} {r : Run} (hready : r.st.fault = none) (hj : r.budget ≤ j) (hk : r.budget ≤ k) :
    executeLoop Config.extraCycles j r = executeLoop Config.extraCycles k r := by
  by_cases hbudget : 0 < r.budget
  case neg => rw [executeLoop_of_spent (not_lt.mp hbudget), executeLoop_of_spent (not_lt.mp hbudget)]
  induction j generalizing k r with
  | zero => exact absurd hbudget (by omega)
  | succ j ih =>
    cases k with
    | zero => exact absurd hbudget (by omega)
    | succ k =>
      cases hf : (stepRun r).st.fault with
      | some f => rw [executeLoop_of_fault hbudget hf, executeLoop_of_fault hbudget hf]
      | none =>
        rw [executeLoop_of_unfaulted hbudget hf, executeLoop_of_unfaulted hbudget hf]
        have hcharge := stepRun_budget hready
        have hcost := (cycleCost_bounds (r.st.load r.st.pc)).1
        by_cases hleft : 0 < (stepRun r).budget
        · exact ih hf (by omega) (by omega) hleft
        · rw [executeLoop_of_spent (not_lt.mp hleft), executeLoop_of_spent (not_lt.mp hleft)]

/-- The transactions before a loop change nothing of it. -/
theorem executeLoop_extend {p : Run} (hp : p.budget = 0) (k : Nat) (d : Run) :
    executeLoop Config.extraCycles k (p.extend d) = p.extend (executeLoop Config.extraCycles k d) := by
  have hsame : ∀ d : Run, (p.extend d).budget = d.budget := fun d => by rw [Run.extend_budget, hp, Int.zero_add]
  induction k generalizing d with
  | zero => rfl
  | succ k ih =>
    by_cases hbudget : 0 < d.budget
    · have hbudget' : 0 < (p.extend d).budget := by rwa [hsame]
      have hcommute := stepRun_extend p d
      cases hf : (stepRun d).st.fault with
      | some f =>
        rw [executeLoop_of_fault hbudget hf, executeLoop_of_fault (f := f) hbudget' (by rw [hcommute]; exact hf), hcommute]
      | none =>
        rw [executeLoop_of_unfaulted hbudget hf, executeLoop_of_unfaulted hbudget' (by rw [hcommute]; exact hf), hcommute, ih]
    · rw [executeLoop_of_spent (not_lt.mp hbudget), executeLoop_of_spent (by rw [hsame]; exact not_lt.mp hbudget)]

/-! ### What `Execute` reports, read off the run it ends with (R80) -/

theorem execute_faulted_iff {s : State} (hready : s.fault = none) {n : Int} {f : Fault} :
    (execute n s).outcome = .faulted f ↔ (execute n s).final.st.fault = some f := by
  rw [execute_final hready]
  simp only [execute, executeWith, hready]
  cases (executeLoop Config.extraCycles n.toNat (Run.start s n)).st.fault <;> simp

theorem execute_consumed_iff {s : State} (hready : s.fault = none) {n c : Int} :
    (execute n s).outcome = .consumed c ↔ (execute n s).final.st.fault = none ∧ n - (execute n s).final.budget = c := by
  rw [execute_final hready]
  simp only [execute, executeWith, hready]
  cases (executeLoop Config.extraCycles n.toNat (Run.start s n)).st.fault <;> simp

/-! ### What every run keeps -/

/-- Settles O34: `Inv` is kept by every step, O32, and so by the run. -/
theorem executeKeepsInvariant : Obligations.ExecuteKeepsInvariant := by
  intro n s hinv
  refine execute_induction (P := fun r => r.st.Inv) hinv fun r hready _ hr => ?_
  exact stepKeepsInvariant _ _ hr (step_eq_stepRun hready)

/-- `t` differs from `s` at most in the stack page, `A`, `PC`, `SP`, `Z`, `N` and the fault status. -/
def OnlyStackPageWritten (s t : State) : Prop :=
  (∀ addr : Word, ¬ InStackPage addr → t.load addr = s.load addr) ∧ t.x = s.x ∧ t.y = s.y
    ∧ ∀ f : Flag, f ≠ .z → f ≠ .n → hostReadFlag t f = hostReadFlag s f

theorem OnlyStackPageWritten.refl (s : State) : OnlyStackPageWritten s s :=
  ⟨fun _ _ => rfl, rfl, rfl, fun _ _ _ => rfl⟩

theorem OnlyStackPageWritten.trans {s t u : State} (hst : OnlyStackPageWritten s t) (htu : OnlyStackPageWritten t u) :
    OnlyStackPageWritten s u := by
  obtain ⟨hmem, hx, hy, hflags⟩ := hst
  obtain ⟨hmem', hx', hy', hflags'⟩ := htu
  exact ⟨fun a ha => (hmem' a ha).trans (hmem a ha), hx'.trans hx, hy'.trans hy,
    fun f hz hn => (hflags' f hz hn).trans (hflags f hz hn)⟩

theorem inStackPage_stackSlot (sp : Byte) : InStackPage (stackSlot sp) := by
  have h := sp.isLt
  rw [InStackPage, stackSlot_toNat]
  omega

theorem ne_stackSlot_of_not_inStackPage {addr : Word} (h : ¬ InStackPage addr) (sp : Byte) : addr ≠ stackSlot sp :=
  fun e => h (e ▸ inStackPage_stackSlot sp)

/-- One step: a jump stores in its two slots, and nothing else stores at all. -/
theorem onlyStackPageWritten_of_step {s t : State} (h : step s = .next t) : OnlyStackPageWritten s t := by
  obtain ⟨-, -, -, hx, hy, hflags⟩ := stepFrameByOpcode s t h
  refine ⟨fun addr haddr => ?_, hx, hy, hflags⟩
  obtain ⟨-, ⟨-, rfl⟩ | ⟨-, v, rfl⟩ | ⟨-, rfl⟩⟩ := step_cases h
  · exact calledState_load_of_ne s _ (ne_stackSlot_of_not_inStackPage haddr _) (ne_stackSlot_of_not_inStackPage haddr _)
  · rfl
  · rfl

/-- Settles O37: the frame of one step, along the run. -/
theorem executeWritesOnlyStackPage : Obligations.ExecuteWritesOnlyStackPage := by
  intro n s
  refine execute_induction (P := fun r => OnlyStackPageWritten s r.st) (OnlyStackPageWritten.refl s)
    fun r hready _ hr => ?_
  exact hr.trans (onlyStackPageWritten_of_step (step_eq_stepRun hready))

/-- Settles O40: every step charges as many cycles as it makes transactions. -/
theorem executeConsumesOneCyclePerByte : Obligations.ExecuteConsumesOneCyclePerByte := by
  intro n s
  refine execute_induction (P := fun r => n - r.budget = (r.trace.length : Int)) (by simp) fun r hready _ hr => ?_
  rw [stepRun_budget hready, stepRun_trace_length hready]
  omega

/-! ### How a run ends (D6) -/

/-- The budget within a run begun with `n`: never above `n`, overdrawn by at most 4 by a completed instruction, and not at all
by the single fetch of an illegal byte. -/
def BudgetBounded (n : Int) (r : Run) : Prop :=
  r.budget ≤ n ∧ (r.st.fault = none → 0 < n → -4 ≤ r.budget) ∧ (∀ f, r.st.fault = some f → 0 < n ∧ 0 ≤ r.budget)

theorem budgetBounded_start {s : State} (hready : s.fault = none) (n : Int) : BudgetBounded n (Run.start s n) := by
  refine ⟨le_rfl, fun _ hn => ?_, fun f hf => ?_⟩
  · rw [Run.start_budget]
    omega
  · rw [Run.start_st, hready] at hf
    cases hf

theorem budgetBounded_stepRun {n : Int} {r : Run} (hready : r.st.fault = none) (hbudget : 0 < r.budget)
    (hr : BudgetBounded n r) : BudgetBounded n (stepRun r) := by
  obtain ⟨hle, -, -⟩ := hr
  have hcharge := stepRun_budget hready
  obtain ⟨hlow, hhigh⟩ := cycleCost_bounds (r.st.load r.st.pc)
  refine ⟨by omega, fun _ _ => by omega, fun f hf => ?_⟩
  have hillegal : r.st.load r.st.pc ∉ legalOpcodes := fun hop => by
    rw [stepRun_fault_of_legal hready hop] at hf
    cases hf
  have hcost := cycleCost_of_not_legal hillegal
  omega

/-- Settles O39: the bounds on the budget hold along the run, and it ends only with the budget spent or with a fault. -/
theorem executeEndsAtBudgetOrFault : Obligations.ExecuteEndsAtBudgetOrFault := by
  intro n s hready
  have hbounded : BudgetBounded n (execute n s).final :=
    execute_induction (budgetBounded_start hready n) fun r => budgetBounded_stepRun
  obtain ⟨-, hoverdraw, hfault⟩ := hbounded
  cases hf : (execute n s).final.st.fault with
  | none =>
    have hspent : (execute n s).final.budget ≤ 0 := by
      rw [execute_final hready] at hf ⊢
      exact executeLoop_ends _ hready (Int.self_le_toNat n) hf
    exact .inl ⟨_, (execute_consumed_iff hready).mpr ⟨hf, rfl⟩, rfl, rfl, hspent, hoverdraw hf⟩
  | some f => exact .inr ⟨f, (execute_faulted_iff hready).mpr hf, rfl, hfault f hf⟩

/-! ### A run as one step and the rest (D21), and as iterated steps (D22) -/

theorem execute_of_spent {s : State} (hready : s.fault = none) {n : Int} (hn : n ≤ 0) :
    execute n s = { outcome := .consumed 0, final := Run.start s n } := by
  have hloop := executeLoop_of_spent (r := Run.start s n) hn n.toNat
  simp only [execute, executeWith, hready, hloop, Run.start_st, Run.start_budget, Int.sub_self]

/-- What a run has moved so far, with no budget of its own. -/
def Run.moved (r : Run) : Run := { r with budget := 0 }

@[simp] theorem Run.moved_budget (r : Run) : r.moved.budget = 0 := rfl
@[simp] theorem Run.moved_trace (r : Run) : r.moved.trace = r.trace := rfl

/-- A run is what it has moved and a fresh start at the budget it has left. -/
theorem Run.moved_extend_start (r : Run) : r.moved.extend (Run.start r.st r.budget) = r := by
  simp [Run.extend]

section FirstStep

variable {s : State} {n : Int} {r : Run}

theorem execute_of_first_fault {f : Fault} (hready : s.fault = none) (hn : 0 < n) (hr : stepRun (Run.start s n) = r)
    (hf : r.st.fault = some f) : execute n s = { outcome := .faulted f, final := r } := by
  obtain ⟨k, hk⟩ : ∃ k : Nat, n.toNat = k + 1 := ⟨n.toNat - 1, by omega⟩
  have hloop : executeLoop Config.extraCycles n.toNat (Run.start s n) = r := by
    rw [hk, executeLoop_of_fault hn (by rw [hr]; exact hf), hr]
  simp only [execute, executeWith, hready, hloop, hf]

/-- After a first step that raised no fault, the rest is `Execute` of the remaining budget. -/
theorem execute_final_of_first_unfaulted (hready : s.fault = none) (hn : 0 < n) (hr : stepRun (Run.start s n) = r)
    (hf : r.st.fault = none) : (execute n s).final = r.moved.extend (execute r.budget r.st).final := by
  obtain ⟨k, hk⟩ : ∃ k : Nat, n.toNat = k + 1 := ⟨n.toNat - 1, by omega⟩
  have hleft : r.budget ≤ k := by
    have hcharge := stepRun_budget (r := Run.start s n) hready
    have hcost := (cycleCost_bounds (s.load s.pc)).1
    rw [hr, Run.start_budget, Run.start_st] at hcharge
    omega
  calc (execute n s).final
      = executeLoop Config.extraCycles k r := by
        rw [execute_final hready, hk, executeLoop_of_unfaulted hn (by rw [hr]; exact hf), hr]
    _ = executeLoop Config.extraCycles r.budget.toNat r := executeLoop_fuel hf hleft (Int.self_le_toNat _)
    _ = r.moved.extend (execute r.budget r.st).final := by
        rw [execute_final hf, ← executeLoop_extend r.moved_budget, Run.moved_extend_start]

end FirstStep

/-- Settles O38: the three cases of the first turn; the outcomes are read off the final runs, which agree but for the
transactions of the first step. -/
theorem executeUnrollsOneStep : Obligations.ExecuteUnrollsOneStep := by
  intro n s hready
  refine ⟨execute_of_spent hready, fun hn r hr =>
    ⟨fun f hf => execute_of_first_fault hready hn hr.symm hf, fun hf => ?rest⟩⟩
  have hfinal := execute_final_of_first_unfaulted hready hn hr.symm hf
  have hst : (execute n s).final.st = (execute r.budget r.st).final.st := by rw [hfinal, Run.extend_st]
  have hbudget : (execute n s).final.budget = (execute r.budget r.st).final.budget := by
    rw [hfinal, Run.extend_budget, Run.moved_budget, Int.zero_add]
  refine ⟨hst, hbudget, by rw [hfinal, Run.extend_trace, Run.moved_trace], fun c hc => ?consumed, fun f hfaulted => ?faulted⟩
  case consumed =>
    obtain ⟨hend, hcycles⟩ := (execute_consumed_iff hf).mp hc
    refine (execute_consumed_iff hready).mpr ⟨hst ▸ hend, ?_⟩
    rw [hbudget, ← hcycles]
    omega
  case faulted =>
    rw [execute_faulted_iff hready, hst]
    exact (execute_faulted_iff hf).mp hfaulted

/-- `Core.run` taken one step further at its end. -/
theorem run_succ_of_run (M : Host.Core) {k : Nat} {s t u : M.State} (hrun : M.run k s = .next t)
    (hstep : M.step t = .next u) : M.run (k + 1) s = .next u := by
  induction k generalizing s with
  | zero =>
    cases hrun
    simp only [Host.Core.run, hstep]
  | succ k ih =>
    rw [Host.Core.run] at hrun ⊢
    cases hs : M.step s with
    | next v => rw [hs] at hrun; exact ih hrun
    | fault f => rw [hs] at hrun; cases hrun
    | refused f => rw [hs] at hrun; cases hrun

/-- The state of `r` is that of some number of steps of the machine from `s`, each paid for out of `n`: by at least one cycle,
and by at least two where it was a completed instruction. -/
def ReachedWithin (n : Int) (s : State) (r : Run) : Prop :=
  ∃ k : Nat, Host.Core.run Sys2Proof.core k s = .next r.st ∧ (k : Int) ≤ n - r.budget ∧ k ≤ n.toNat
    ∧ (r.st.fault = none → 2 * (k : Int) ≤ n - r.budget ∧ 2 * k ≤ n.toNat + 1)

theorem reachedWithin_start (n : Int) (s : State) : ReachedWithin n s (Run.start s n) :=
  ⟨0, rfl, by simp, Nat.zero_le _, by simp⟩

theorem reachedWithin_stepRun {n : Int} {s : State} {r : Run} (hready : r.st.fault = none) (hbudget : 0 < r.budget)
    (hr : ReachedWithin n s r) : ReachedWithin n s (stepRun r) := by
  obtain ⟨k, hrun, hpaid, -, hhalf⟩ := hr
  obtain ⟨hpaid2, -⟩ := hhalf hready
  have hcharge := stepRun_budget hready
  have hcost := (cycleCost_bounds (r.st.load r.st.pc)).1
  refine ⟨k + 1, run_succ_of_run Sys2Proof.core hrun (step_eq_stepRun hready), by omega, by omega, fun hf => ?_⟩
  have hcost2 := two_le_cycleCost_of_legal _ (legal_of_stepRun_unfaulted hready hf)
  constructor <;> omega

/-- Settles O41: each turn of the loop is one more step of the machine, and what it charges bounds their number. -/
theorem executeIsIteratedStep : Obligations.ExecuteIsIteratedStep := by
  intro n s _
  have hreached : ReachedWithin n s (execute n s).final :=
    execute_induction (reachedWithin_start n s) fun r => reachedWithin_stepRun
  obtain ⟨k, hrun, -, hk, hhalf⟩ := hreached
  exact ⟨k, hrun, hk, fun hf => (hhalf hf).2⟩

/-- The byte at the reset `PC`, with memory untouched, is 0x00, and it is illegal (R108). -/
theorem reset_load_pc : State.reset.load State.reset.pc = 0x00 := rfl

/-- Settles O2: the first step from reset is that of an illegal byte, and its fault ends the run. -/
theorem freshMachineFaultsAtOnce : Obligations.FreshMachineFaultsAtOnce := by
  intro n hn
  have hillegal : State.reset.load State.reset.pc ∉ legalOpcodes := by rw [reset_load_pc]; decide
  exact execute_of_first_fault rfl hn (stepRun_illegal rfl hillegal n) rfl

end Sys2Proof.Machine
end

/-! ## Proofs: reset, the host's calls and the word write (10_state.md section 7, 20_memory.md section 2) -/
section
namespace Sys2Proof.Machine

theorem resetMachine_eq (s : State) : resetMachine s = State.reset := rfl

theorem reset_hostReadFlag (f : Flag) : hostReadFlag State.reset f = false := by cases f <;> rfl

/-- Settles O1: `Reset` answers the one state of R23, whatever it started from. -/
theorem resetLeavesPowerOnState : Obligations.ResetLeavesPowerOnState := by
  intro s
  rw [resetMachine_eq]
  exact ⟨rfl, rfl, rfl, rfl, rfl, rfl, reset_hostReadFlag, fun _ => rfl, rfl⟩

/-! ### `write_word` (R29) -/

theorem Memory.writeWord_outOfRange (m : Memory) {a : Int} (w : Word) (n : Int) (h : ¬ InRange a) :
    m.writeWord a w n = .error (.outOfRange a) := if_pos h

/-- At the top of memory the upper byte has no address (D30). -/
theorem Memory.writeWord_top (m : Memory) {a : Int} (w : Word) (n : Int) (h : InRange a) (h' : ¬ InRange (a + 1)) :
    m.writeWord a w n = .error (.outOfRange (a + 1)) := by
  rw [Memory.writeWord, if_neg (not_not.mpr h), if_pos h']

/-- Settles O4: two writes in range with `Memory.read_set_same` and `Memory.read_set_ne`, and the two failures. -/
theorem writeWordIsLittleEndianOrFailsWhole : Obligations.WriteWordIsLittleEndianOrFailsWhole := by
  intro m a w n
  refine ⟨fun ha => ?inRange, fun ha => ?top, fun ha => m.writeWord_outOfRange w n (not_inRange_iff.mpr ha)⟩
  case inRange =>
    have hlow : InRange a := inRange_iff.mpr (by omega)
    have hhigh : InRange (a + 1) := inRange_iff.mpr (by omega)
    refine ⟨_, lo8 w, hi8 w, m.writeWord_inRange w n hlow hhigh, (hi8_mul_add_lo8 w).symm, ?low,
      Memory.read_set_same _ _ hhigh, fun b hb hb' => ?frame⟩
    case low => rw [Memory.read_set_ne _ _ hhigh (by omega), Memory.read_set_same _ _ hlow]
    case frame => rw [Memory.read_set_ne _ _ hhigh hb', Memory.read_set_ne _ _ hlow hb]
  case top =>
    subst ha
    exact m.writeWord_top w n (by decide) (by decide)

/-! ### The host's calls (R25, R89) -/

theorem Memory.outOfRange_of_write_error {m : Memory} {a : Int} {v : Byte} {f : Fault} (h : m.write a v = .error f) :
    ∃ addr : Int, f = .outOfRange addr ∧ ¬ InRange addr := by
  by_cases ha : InRange a
  · rw [Memory.write_inRange _ _ ha] at h
    cases h
  · rw [Memory.write_outOfRange _ _ ha] at h
    cases h
    exact ⟨a, rfl, ha⟩

theorem Memory.outOfRange_of_writeWord_error {m : Memory} {a : Int} {w : Word} {n : Int} {f : Fault}
    (h : m.writeWord a w n = .error f) : ∃ addr : Int, f = .outOfRange addr ∧ ¬ InRange addr := by
  by_cases ha : InRange a
  case neg =>
    rw [Memory.writeWord_outOfRange _ _ _ ha] at h
    cases h
    exact ⟨a, rfl, ha⟩
  by_cases ha' : InRange (a + 1)
  · rw [Memory.writeWord_inRange _ _ _ ha ha'] at h
    cases h
  · rw [Memory.writeWord_top _ _ _ ha ha'] at h
    cases h
    exact ⟨a + 1, rfl, ha'⟩

theorem hostCall_error {call : HostCall} {s : State} {f : Fault} (h : hostCall call s = .error f) :
    ∃ addr : Int, f = .outOfRange addr ∧ ¬ InRange addr := by
  cases call with
  | write a v =>
    cases hw : s.mem.write a v with
    | ok m => simp only [hostCall, hw] at h; cases h
    | error g => simp only [hostCall, hw] at h; cases h; exact Memory.outOfRange_of_write_error hw
  | writeWord a w =>
    cases hw : s.mem.writeWord a w 0 with
    | ok p => simp only [hostCall, hw] at h; cases h
    | error g => simp only [hostCall, hw] at h; cases h; exact Memory.outOfRange_of_writeWord_error hw
  | reset | setRegister | setPc | setFlag | zeroMemory => cases h

theorem hostCall_ok {call : HostCall} {s t : State} (h : hostCall call s = .ok t) :
    (call ≠ .reset → t.fault = s.fault) ∧ (s.mem.wf → t.mem.wf) := by
  cases call with
  | reset => cases h; exact ⟨fun hne => absurd rfl hne, fun _ => Memory.wf_zeroAll s.mem⟩
  | setRegister r v =>
    cases h
    rw [hostSetRegister_mem]
    exact ⟨fun _ => hostSetRegister_fault s r v, id⟩
  | setPc v => cases h; exact ⟨fun _ => rfl, id⟩
  | setFlag f v => cases h; exact ⟨fun _ => rfl, id⟩
  | zeroMemory => cases h; exact ⟨fun _ => rfl, fun _ => Memory.wf_zeroAll s.mem⟩
  | write a v =>
    cases hw : s.mem.write a v with
    | ok m => simp only [hostCall, hw] at h; cases h; exact ⟨fun _ => rfl, fun hwf => Memory.wf_write hwf hw⟩
    | error g => simp only [hostCall, hw] at h; cases h
  | writeWord a w =>
    cases hw : s.mem.writeWord a w 0 with
    | ok p => simp only [hostCall, hw] at h; cases h; exact ⟨fun _ => rfl, fun hwf => Memory.wf_writeWord hwf hw⟩
    | error g => simp only [hostCall, hw] at h; cases h

/-- Settles O42: only the memory calls can fail, and each call that succeeds is a write that keeps the canonical form. -/
theorem hostCallsKeepFaultAndCanonicalMemory : Obligations.HostCallsKeepFaultAndCanonicalMemory := by
  intro call s
  refine ⟨fun f hf => ?_, fun t ht => hostCall_ok ht⟩
  obtain ⟨addr, hfault, hrange⟩ := hostCall_error hf
  exact ⟨addr, hfault, not_inRange_iff.mp hrange⟩

theorem hostReadRegister_hostSetRegister (s : State) (q r : Register) (v : Byte) :
    hostReadRegister (hostSetRegister s r v) q = if q = r then v else hostReadRegister s q := by
  cases r <;> cases q <;> rfl

theorem hostReadFlag_setFlag (s : State) (g f : Flag) (b : Bool) :
    hostReadFlag (s.setFlags (s.flags.setFlag f b)) g = if g = f then b else hostReadFlag s g := by
  cases f <;> cases g <;> rfl

theorem hostReadRegister_setFlags (s : State) (fl : Flags) (q : Register) :
    hostReadRegister (s.setFlags fl) q = hostReadRegister s q := by
  cases q <;> rfl

/-- Settles O43: the three setters, with what each reads back. -/
theorem hostSetsOneRegisterOrFlag : Obligations.HostSetsOneRegisterOrFlag := by
  intro s q r f g v b w
  refine ⟨⟨_, rfl, ?register⟩, ⟨_, rfl, ?flag⟩, ⟨_, rfl, rfl, rfl⟩⟩
  case register =>
    exact ⟨hostReadRegister_hostSetRegister s q r v, hostSetRegister_pc s r v, hostSetRegister_flags s r v,
      hostSetRegister_mem s r v⟩
  case flag => exact ⟨hostReadFlag_setFlag s g f b, hostReadRegister_setFlags s _ q, rfl, rfl⟩

end Sys2Proof.Machine
end

/-! ## Proofs: the fetches, the modes of no opcode in scope, and the packed flags (40_fetch_and_addressing.md, R17) -/
section
namespace Sys2Proof.Machine

/-- Settles O5: what the two fetches do, by their equations. -/
theorem fetchAdvancesProgramCounter : Obligations.FetchAdvancesProgramCounter := by
  intro r
  refine ⟨Prod.ext (fetchByte_fst r) (fetchByte_snd r), ?word, rfl, ?state, ?budget⟩
  case word => rw [fetchWord_fst, wordOf_toNat]
  case state => rw [fetchWord_snd, State.advancePc_advancePc]; rfl
  case budget => exact Int.sub_sub r.budget 1 1

theorem resolve_zeroPageY (r : Run) :
    resolve .zeroPageY r = (.address (zeroPageIndexed (fetchByte r).1 r.st.y), (fetchByte r).2) := rfl

theorem resolve_absolute (r : Run) : resolve .absolute r = (.address (fetchWord r).1, (fetchWord r).2) := rfl

/-- Settles O8: the indexed address by its number, and the absolute mode as one `FetchWord`. -/
theorem zeroPageYAndAbsoluteResolve : Obligations.ZeroPageYAndAbsoluteResolve :=
  fun r => ⟨⟨_, resolve_zeroPageY r, zeroPageIndexed_toNat _ _⟩, resolve_absolute r⟩

/-! ### The packed status byte (D14) -/

/-- The eight bits of the packed byte, from the lowest. -/
theorem packFlags_getLsbD (f : Flags) (k : Nat) (hk : k < 8) :
    (packFlags f).getLsbD k = [f.c, f.z, f.i, f.d, f.b, true, f.v, f.n][k] := by
  simp only [packFlags, BitVec.getLsbD_append]
  interval_cases k <;> simp

theorem unpackFlags_packFlags (f : Flags) : unpackFlags (packFlags f) = f := by
  simp only [unpackFlags, packFlags_getLsbD, Nat.reduceLT]
  rfl

/-- Bit 5 stands for no flag and reads 1; every other bit is unpacked and packed again. -/
theorem packFlags_unpackFlags (p : Byte) : packFlags (unpackFlags p) = p ||| 0x20 := by
  apply BitVec.eq_of_getLsbD_eq
  intro k hk
  rw [packFlags_getLsbD _ _ hk, BitVec.getLsbD_or]
  interval_cases k <;> simp [unpackFlags]

/-- Settles O10: both round trips, and the layout bit by bit. -/
theorem packedStatusRepresentsFlags : Obligations.PackedStatusRepresentsFlags := by
  refine ⟨unpackFlags_packFlags, packFlags_unpackFlags, fun f => ?layout⟩
  have hbit := packFlags_getLsbD f
  exact ⟨hbit 0 (by omega), hbit 1 (by omega), hbit 2 (by omega), hbit 3 (by omega), hbit 4 (by omega),
    hbit 5 (by omega), hbit 6 (by omega), hbit 7 (by omega)⟩

end Sys2Proof.Machine
end
